-- ==== Sys2Proof/Word.lean ====
section
/-! DEFINITION. The machine's words (spec/00_scope.md rules R7 and R8, spec/30_encoding.md rules R60 to R62):
the 24-bit word, the byte, the 16-bit address operand and the register index. -/

namespace Sys2Proof

/-- The native 24-bit word (R8). `v.toNat` is the spec's unsigned view u(v), `v.toInt` its signed view s(v). -/
abbrev Word := BitVec 24

/-- One byte of memory or of an instruction (R7). -/
abbrev Byte := BitVec 8

/-- A 16-bit address operand (R62). -/
abbrev Addr := BitVec 16

/-- The index of one of the 16 general registers (R11, R13): an index outside 0..15 cannot be written. -/
abbrev RegIdx := Fin 16

/-- w(n) of R8: the word whose unsigned value is n modulo 2^24, for any integer n. -/
def wrap (n : Int) : Word := BitVec.ofInt 24 n

/-- zext_24 of R9 and R62: a 16-bit address as a word. -/
def zext (a : Addr) : Word := a.setWidth 24

end Sys2Proof
end

