-- ==== Sys2Proof/Config.lean ====
section
/-! DEFINITION. The machine's parameters (spec/00_scope.md rules R5 and R6): the fixed ones by value, the open
ones as constants without a body, and the host's free answers to SYSCALL id 1 (spec/47_system.md rule R139). -/

namespace Sys2Proof

/-- What the host does when SYSCALL id 1 asks it for an integer (R139; I12 and I13 of
spec/93_implementation_defined.md). -/
inductive HostAnswer where
  /-- The host answers the integer n. -/
  | int (n : Int)
  /-- The host answers that no input can come. -/
  | noInput
  /-- The host never answers: the machine waits for ever. -/
  | never
  deriving DecidableEq, Repr, Inhabited

namespace Config

/-- MEM_SIZE (R5): 65,536 bytes. -/
def memSize : Nat := 65536

/-- WORD_BYTES (R5): a word takes 3 bytes of memory. -/
def wordBytes : Nat := 3

/-- SP_INIT (R5, R21): one past the last byte of memory. -/
def spInit : Nat := 0x10000

/-- ENCODING_VERSION (R5, R72): the version byte of an image encoded with this opcode map. -/
def encodingVersion : Byte := 1

/-- MAX_STACK_DEPTH minus one: an open parameter of the implementation (R5, R6, D23). It has no body, so
nothing can be proved of its value (log entry 2). -/
opaque callDepthHeadroom : Nat

/-- MAX_STACK_DEPTH (R5, R6): an open natural number, at least 1 (log entry 2). -/
def maxStackDepth : Nat := callDepthHeadroom + 1

/-- IMAGE_MAGIC (R6, D32): the four bytes an image begins with, open (log entry 3). -/
opaque imageMagic : Vector Byte 4

/-- The answer of the host to the n-th SYSCALL id 1 for which `State.hostInput` holds no answer: free (R139, I12;
log entry 4). -/
opaque hostAnswer : Nat → HostAnswer

end Config

end Sys2Proof
end

