-- ==== Sys2Proof/Syntax.lean ====
section
/-! DEFINITION. The instructions, one constructor per row of spec/opcode_table.json, operands in encoding order
(spec/30_encoding.md rule R64), and the ten formats by name (R63). -/

namespace Sys2Proof

/-- The 43 instructions of the opcode map (R64). A register operand is an index 0..15, an immediate is a word, an
address is 16 bits. -/
inductive Instr where
  /-- HALT (R143) -/
  | halt
  /-- LOADI rd, imm (R96) -/
  | loadi (rd : RegIdx) (imm : Word)
  /-- MOV rd, rs (R97) -/
  | mov (rd rs : RegIdx)
  /-- SWAP ra, rb (R98) -/
  | swap (ra rb : RegIdx)
  /-- ADD rd, ra, rb (R99) -/
  | add (rd ra rb : RegIdx)
  /-- SUB rd, ra, rb (R100) -/
  | sub (rd ra rb : RegIdx)
  /-- MUL rd, ra, rb (R101) -/
  | mul (rd ra rb : RegIdx)
  /-- DIV rd, ra, rb (R102) -/
  | div (rd ra rb : RegIdx)
  /-- MOD rd, ra, rb (R103) -/
  | mod (rd ra rb : RegIdx)
  /-- ADDI rd, ra, imm (R104) -/
  | addi (rd ra : RegIdx) (imm : Word)
  /-- SUBI rd, ra, imm (R105) -/
  | subi (rd ra : RegIdx) (imm : Word)
  /-- MULI rd, ra, imm (R106) -/
  | muli (rd ra : RegIdx) (imm : Word)
  /-- DIVI rd, ra, imm (R107) -/
  | divi (rd ra : RegIdx) (imm : Word)
  /-- MODI rd, ra, imm (R108) -/
  | modi (rd ra : RegIdx) (imm : Word)
  /-- ADDA rd, rs (R109) -/
  | adda (rd rs : RegIdx)
  /-- SUBA rd, rs (R110) -/
  | suba (rd rs : RegIdx)
  /-- MULA rd, rs (R111) -/
  | mula (rd rs : RegIdx)
  /-- DIVA rd, rs (R112) -/
  | diva (rd rs : RegIdx)
  /-- MODA rd, rs (R113) -/
  | moda (rd rs : RegIdx)
  /-- CMP ra, rb (R114) -/
  | cmp (ra rb : RegIdx)
  /-- AND rd, ra, rb (R115) -/
  | and (rd ra rb : RegIdx)
  /-- OR rd, ra, rb (R116) -/
  | or (rd ra rb : RegIdx)
  /-- XOR rd, ra, rb (R117) -/
  | xor (rd ra rb : RegIdx)
  /-- NOT rd, rs (R118) -/
  | not (rd rs : RegIdx)
  /-- SHL rd, ra, rb (R119) -/
  | shl (rd ra rb : RegIdx)
  /-- SHR rd, ra, rb (R120) -/
  | shr (rd ra rb : RegIdx)
  /-- PUSH rs (R121) -/
  | push (rs : RegIdx)
  /-- POP rd (R122) -/
  | pop (rd : RegIdx)
  /-- PEEK rd (R123) -/
  | peek (rd : RegIdx)
  /-- LOAD rd, ra (R124) -/
  | load (rd ra : RegIdx)
  /-- STORE rs, ra (R125): the value first, then the address -/
  | store (rs ra : RegIdx)
  /-- ALOAD rd, base, ri (R126) -/
  | aload (rd : RegIdx) (base : Addr) (ri : RegIdx)
  /-- ASTORE base, ri, rs (R127) -/
  | astore (base : Addr) (ri rs : RegIdx)
  /-- JMP target (R128) -/
  | jmp (target : Addr)
  /-- JEQ target (R129) -/
  | jeq (target : Addr)
  /-- JNE target (R130) -/
  | jne (target : Addr)
  /-- JGT target (R131) -/
  | jgt (target : Addr)
  /-- JLT target (R132) -/
  | jlt (target : Addr)
  /-- JGTU target (R133) -/
  | jgtu (target : Addr)
  /-- JLTU target (R134) -/
  | jltu (target : Addr)
  /-- CALL target (R135) -/
  | call (target : Addr)
  /-- RET (R136) -/
  | ret
  /-- SYSCALL id, r, off (R137) -/
  | syscall (id : Word) (r : RegIdx) (off : Addr)
  deriving DecidableEq, Repr

/-- The three kinds of operand of an instruction (R59): register, immediate, address. -/
inductive OperandKind where
  | reg
  | imm
  | addr
  deriving DecidableEq, Repr

/-- The ten formats of R63, named as the spec names them. -/
inductive Format where
  | n
  | r
  | rr
  | rrr
  | ri
  | rri
  | a
  | rar
  | arr
  | ira
  deriving DecidableEq, Repr

end Sys2Proof
end

