-- ==== Sys2Proof/WellFormed.lean ====
section
/-! DEFINITION. Well-formed operand bytes (spec/30_encoding.md rules R60 to R63 and R67). Every term of `Instr` is
well-formed by its type: a register index is a `Fin 16`, so what can be ill-formed is a byte sequence. These
checks say which operand bytes fit a list of operand kinds. -/

namespace Sys2Proof

/-- A register byte is valid if it is 0 to 15 (R60). -/
def regByteOk (b : Byte) : Bool := decide (b.toNat ≤ 15)

/-- How many bytes an operand takes (R60 to R62). -/
def OperandKind.size : OperandKind → Nat
  | .reg => 1
  | .imm => 3
  | .addr => 2

/-- The operand bytes fit the operand kinds exactly: as many bytes as the kinds take, every register byte valid
(R60 to R62, R67). -/
def operandsOk : List OperandKind → List Byte → Bool
  | [], [] => true
  | .reg :: ks, b :: bs => regByteOk b && operandsOk ks bs
  | .imm :: ks, _ :: _ :: _ :: bs => operandsOk ks bs
  | .addr :: ks, _ :: _ :: bs => operandsOk ks bs
  | _, _ => false

end Sys2Proof
end

