-- ==== Sys2Proof/Decode.lean ====
section
/-! DEFINITION. The decoder and the encoder (spec/30_encoding.md rules R59 to R70): the opcode map, the formats'
layouts, decoding of any byte list with its three refusals, and the encoding of every instruction. -/

namespace Sys2Proof

/-- Why a byte list does not decode (R66). -/
inductive DecodeError where
  /-- There is no opcode byte, or fewer bytes than the opcode's width: checks (1) and (3) of R66. -/
  | truncated
  /-- The first byte is no opcode of R64: check (2) of R66. -/
  | invalidOpcode
  /-- A register byte is above 15: check (4) of R66. -/
  | malformedOperand
  deriving DecidableEq, Repr

/-- The operands of a format, in encoding order (R63). -/
def Format.operands : Format → List OperandKind
  | .n => []
  | .r => [.reg]
  | .rr => [.reg, .reg]
  | .rrr => [.reg, .reg, .reg]
  | .ri => [.reg, .imm]
  | .rri => [.reg, .reg, .imm]
  | .a => [.addr]
  | .rar => [.reg, .addr, .reg]
  | .arr => [.addr, .reg, .reg]
  | .ira => [.imm, .reg, .addr]

/-- The width in bytes of an instruction of a format, the opcode byte among them (R63, R65). -/
def Format.width : Format → Nat
  | .n => 1
  | .r => 2
  | .rr => 3
  | .rrr => 4
  | .ri => 5
  | .rri => 6
  | .a => 3
  | .rar => 5
  | .arr => 5
  | .ira => 7

/-- The longest instruction: SYSCALL's 7 bytes (R65). -/
def maxWidth : Nat := 7

/-- A row of the opcode map: the format of an opcode and the instruction it makes of its operands. -/
inductive Row where
  | n (mk : Instr)
  | r (mk : RegIdx → Instr)
  | rr (mk : RegIdx → RegIdx → Instr)
  | rrr (mk : RegIdx → RegIdx → RegIdx → Instr)
  | ri (mk : RegIdx → Word → Instr)
  | rri (mk : RegIdx → RegIdx → Word → Instr)
  | a (mk : Addr → Instr)
  | rar (mk : RegIdx → Addr → RegIdx → Instr)
  | arr (mk : Addr → RegIdx → RegIdx → Instr)
  | ira (mk : Word → RegIdx → Addr → Instr)

/-- The format of a row. -/
def Row.format : Row → Format
  | .n _ => .n
  | .r _ => .r
  | .rr _ => .rr
  | .rrr _ => .rrr
  | .ri _ => .ri
  | .rri _ => .rri
  | .a _ => .a
  | .rar _ => .rar
  | .arr _ => .arr
  | .ira _ => .ira

/-- The opcode map (R64): every byte that is not listed is no opcode (R68). -/
def opcodeRow (op : Byte) : Option Row :=
  match op.toNat with
  | 0x01 => some (.n .halt)
  | 0x02 => some (.ri .loadi)
  | 0x03 => some (.rr .mov)
  | 0x04 => some (.rr .swap)
  | 0x10 => some (.rrr .add)
  | 0x11 => some (.rrr .sub)
  | 0x12 => some (.rrr .mul)
  | 0x13 => some (.rrr .div)
  | 0x14 => some (.rrr .mod)
  | 0x18 => some (.rri .addi)
  | 0x19 => some (.rri .subi)
  | 0x1A => some (.rri .muli)
  | 0x1B => some (.rri .divi)
  | 0x1C => some (.rri .modi)
  | 0x20 => some (.rr .adda)
  | 0x21 => some (.rr .suba)
  | 0x22 => some (.rr .mula)
  | 0x23 => some (.rr .diva)
  | 0x24 => some (.rr .moda)
  | 0x28 => some (.rr .cmp)
  | 0x30 => some (.rrr .and)
  | 0x31 => some (.rrr .or)
  | 0x32 => some (.rrr .xor)
  | 0x33 => some (.rr .not)
  | 0x34 => some (.rrr .shl)
  | 0x35 => some (.rrr .shr)
  | 0x40 => some (.r .push)
  | 0x41 => some (.r .pop)
  | 0x42 => some (.r .peek)
  | 0x48 => some (.rr .load)
  | 0x49 => some (.rr .store)
  | 0x4A => some (.rar .aload)
  | 0x4B => some (.arr .astore)
  | 0x50 => some (.a .jmp)
  | 0x51 => some (.a .jeq)
  | 0x52 => some (.a .jne)
  | 0x53 => some (.a .jgt)
  | 0x54 => some (.a .jlt)
  | 0x55 => some (.a .jgtu)
  | 0x56 => some (.a .jltu)
  | 0x58 => some (.a .call)
  | 0x59 => some (.n .ret)
  | 0x60 => some (.ira .syscall)
  | _ => none

/-- A register operand (R60): the byte's value, if it is 0 to 15. -/
def regOf (b : Byte) : Option RegIdx :=
  if h : b.toNat < 16 then some ⟨b.toNat, h⟩ else none

/-- An immediate operand (R61, R44): three bytes, the lowest first. -/
def immOf (i0 i1 i2 : Byte) : Word := i2 ++ i1 ++ i0

/-- An address operand (R62): two bytes, the low one first. -/
def addrOf (a0 a1 : Byte) : Addr := a1 ++ a0

/-- The register operand as a byte `0000rrrr` (R60). -/
def regByte (r : RegIdx) : Byte := BitVec.ofNat 8 r.val

/-- The bytes of an immediate operand, the lowest first (R61). -/
def immBytes (v : Word) : List Byte :=
  [v.extractLsb' 0 8, v.extractLsb' 8 8, v.extractLsb' 16 8]

/-- The bytes of an address operand, the low one first (R62). -/
def addrBytes (a : Addr) : List Byte := [a.extractLsb' 0 8, a.extractLsb' 8 8]

/-- An operand list with a bad register byte is malformed (R67). -/
def orMalformed (i : Option Instr) (rest : List Byte) : Except DecodeError (Instr × List Byte) :=
  match i with
  | some i => .ok (i, rest)
  | none => .error .malformedOperand

/-- Reads a row's operands from the bytes after the opcode (R63): too few bytes are reported before a bad register
byte (R66, checks (3) and (4)). Answers the instruction and the bytes after it. -/
def Row.parse : Row → List Byte → Except DecodeError (Instr × List Byte)
  | .n mk, bs => .ok (mk, bs)
  | .r mk, b0 :: bs => orMalformed ((regOf b0).map mk) bs
  | .rr mk, b0 :: b1 :: bs =>
    orMalformed ((regOf b0).bind fun r0 => (regOf b1).map fun r1 => mk r0 r1) bs
  | .rrr mk, b0 :: b1 :: b2 :: bs =>
    orMalformed ((regOf b0).bind fun r0 => (regOf b1).bind fun r1 => (regOf b2).map fun r2 => mk r0 r1 r2) bs
  | .ri mk, b0 :: i0 :: i1 :: i2 :: bs => orMalformed ((regOf b0).map fun r0 => mk r0 (immOf i0 i1 i2)) bs
  | .rri mk, b0 :: b1 :: i0 :: i1 :: i2 :: bs =>
    orMalformed ((regOf b0).bind fun r0 => (regOf b1).map fun r1 => mk r0 r1 (immOf i0 i1 i2)) bs
  | .a mk, a0 :: a1 :: bs => .ok (mk (addrOf a0 a1), bs)
  | .rar mk, b0 :: a0 :: a1 :: b1 :: bs =>
    orMalformed ((regOf b0).bind fun r0 => (regOf b1).map fun r1 => mk r0 (addrOf a0 a1) r1) bs
  | .arr mk, a0 :: a1 :: b0 :: b1 :: bs =>
    orMalformed ((regOf b0).bind fun r0 => (regOf b1).map fun r1 => mk (addrOf a0 a1) r0 r1) bs
  | .ira mk, i0 :: i1 :: i2 :: b0 :: a0 :: a1 :: bs =>
    orMalformed ((regOf b0).map fun r0 => mk (immOf i0 i1 i2) r0 (addrOf a0 a1)) bs
  | _, _ => .error .truncated

/-- The decoder (R36, R66, R69): total on any byte list. It answers the instruction the list begins with and the
bytes after it, or the first of R66's checks that fails. -/
def decode : List Byte → Except DecodeError (Instr × List Byte)
  | [] => .error .truncated
  | op :: bs =>
    match opcodeRow op with
    | none => .error .invalidOpcode
    | some row => row.parse bs

/-- The encoder (R63, R64): the bytes of an instruction in address order. -/
def encode : Instr → List Byte
  | .halt => [0x01]
  | .loadi rd imm => 0x02 :: regByte rd :: immBytes imm
  | .mov rd rs => [0x03, regByte rd, regByte rs]
  | .swap ra rb => [0x04, regByte ra, regByte rb]
  | .add rd ra rb => [0x10, regByte rd, regByte ra, regByte rb]
  | .sub rd ra rb => [0x11, regByte rd, regByte ra, regByte rb]
  | .mul rd ra rb => [0x12, regByte rd, regByte ra, regByte rb]
  | .div rd ra rb => [0x13, regByte rd, regByte ra, regByte rb]
  | .mod rd ra rb => [0x14, regByte rd, regByte ra, regByte rb]
  | .addi rd ra imm => 0x18 :: regByte rd :: regByte ra :: immBytes imm
  | .subi rd ra imm => 0x19 :: regByte rd :: regByte ra :: immBytes imm
  | .muli rd ra imm => 0x1A :: regByte rd :: regByte ra :: immBytes imm
  | .divi rd ra imm => 0x1B :: regByte rd :: regByte ra :: immBytes imm
  | .modi rd ra imm => 0x1C :: regByte rd :: regByte ra :: immBytes imm
  | .adda rd rs => [0x20, regByte rd, regByte rs]
  | .suba rd rs => [0x21, regByte rd, regByte rs]
  | .mula rd rs => [0x22, regByte rd, regByte rs]
  | .diva rd rs => [0x23, regByte rd, regByte rs]
  | .moda rd rs => [0x24, regByte rd, regByte rs]
  | .cmp ra rb => [0x28, regByte ra, regByte rb]
  | .and rd ra rb => [0x30, regByte rd, regByte ra, regByte rb]
  | .or rd ra rb => [0x31, regByte rd, regByte ra, regByte rb]
  | .xor rd ra rb => [0x32, regByte rd, regByte ra, regByte rb]
  | .not rd rs => [0x33, regByte rd, regByte rs]
  | .shl rd ra rb => [0x34, regByte rd, regByte ra, regByte rb]
  | .shr rd ra rb => [0x35, regByte rd, regByte ra, regByte rb]
  | .push rs => [0x40, regByte rs]
  | .pop rd => [0x41, regByte rd]
  | .peek rd => [0x42, regByte rd]
  | .load rd ra => [0x48, regByte rd, regByte ra]
  | .store rs ra => [0x49, regByte rs, regByte ra]
  | .aload rd base ri => 0x4A :: regByte rd :: (addrBytes base ++ [regByte ri])
  | .astore base ri rs => 0x4B :: (addrBytes base ++ [regByte ri, regByte rs])
  | .jmp target => 0x50 :: addrBytes target
  | .jeq target => 0x51 :: addrBytes target
  | .jne target => 0x52 :: addrBytes target
  | .jgt target => 0x53 :: addrBytes target
  | .jlt target => 0x54 :: addrBytes target
  | .jgtu target => 0x55 :: addrBytes target
  | .jltu target => 0x56 :: addrBytes target
  | .call target => 0x58 :: addrBytes target
  | .ret => [0x59]
  | .syscall id r off => 0x60 :: (immBytes id ++ (regByte r :: addrBytes off))

/-- The format of an instruction (R64). -/
def Instr.format : Instr → Format
  | .halt | .ret => .n
  | .push .. | .pop .. | .peek .. => .r
  | .mov .. | .swap .. | .adda .. | .suba .. | .mula .. | .diva .. | .moda .. | .cmp .. | .not .. | .load ..
  | .store .. => .rr
  | .add .. | .sub .. | .mul .. | .div .. | .mod .. | .and .. | .or .. | .xor .. | .shl .. | .shr .. => .rrr
  | .loadi .. => .ri
  | .addi .. | .subi .. | .muli .. | .divi .. | .modi .. => .rri
  | .jmp .. | .jeq .. | .jne .. | .jgt .. | .jlt .. | .jgtu .. | .jltu .. | .call .. => .a
  | .aload .. => .rar
  | .astore .. => .arr
  | .syscall .. => .ira

/-- The width of an instruction in bytes (R65). -/
def Instr.width (i : Instr) : Nat := i.format.width

/-- The seven bytes of an instruction given as one number: bit 0 of `w` is bit 0 of the first byte, a later byte's
bits count on from it, and every bit from `nbits` on is 0. -/
def tableBytes (nbits w : Nat) : List Byte :=
  (List.range maxWidth).map fun k => BitVec.ofNat 8 (w % 2 ^ nbits / 256 ^ k)

/-- The instruction the decoder reads from the bits `w` of an opcode table row. -/
def decodeTableWord (nbits w : Nat) : Option Instr :=
  match decode (tableBytes nbits w) with
  | .ok (i, _) => some i
  | .error _ => none

end Sys2Proof
end

