-- ==== Sys2Proof/Machine/State.lean ====
section
/-! DEFINITION. The machine's state (spec/10_state.md), the fault kinds and records (spec/60_exceptions.md rules R144
and R145), the reasons a step has no next state, and the state right after reset (R40, R161). -/

namespace Sys2Proof.Machine

/-- The flag register (R18): zero, negative, carry (borrow), overflow. -/
structure Flags where
  z : Bool
  n : Bool
  c : Bool
  v : Bool
  deriving DecidableEq, Repr

/-- The run state (R25). -/
inductive RunState where
  | running
  | halted
  | faulted
  deriving DecidableEq, Repr

/-- The nine run-time faults of R144, in the order of their codes. They are the machine's exceptions: taking one is
a next state (`State.raise`), not the end of the model. -/
inductive ErrorKind where
  /-- code 1: MemoryError(OutOfBounds) -/
  | outOfBounds
  /-- code 2: StackError(Overflow) -/
  | stackOverflow
  /-- code 3: StackError(Underflow) -/
  | stackUnderflow
  /-- code 4: StackError(RecursionLimit) -/
  | recursionLimit
  /-- code 5: ArithmeticError(DivisionByZero) -/
  | divisionByZero
  /-- code 6: DecodeError(InvalidOpcode) -/
  | invalidOpcode
  /-- code 7: DecodeError(MalformedOperand) -/
  | malformedOperand
  /-- code 8: SyscallError(UnknownId) -/
  | unknownId
  /-- code 9: SyscallError(InputUnavailable) -/
  | inputUnavailable
  deriving DecidableEq, Repr

/-- The fault record (R26, R145): the kind (its code is `ErrorKind.code`), the pc of the faulting instruction, and
the offending address of a memory error (0 for every other kind). -/
structure FaultRecord where
  kind : ErrorKind
  pc : Word
  addr : Word
  deriving DecidableEq, Repr

/-- An event of the host output trace (R28). -/
inductive OutEvent where
  /-- OutInt(n), a signed integer -/
  | outInt (n : Int)
  /-- OutStr(bytes) -/
  | outStr (bytes : List Byte)
  deriving DecidableEq, Repr

/-- Memory as (address, byte) pairs in one canonical form: addresses strictly rising and below 65,536, and no pair
whose byte is what an unlisted address reads as (R41; log entry 9). -/
abbrev Memory := List Host.Cell

/-- The machine's state (the table and the rules of spec/10_state.md). -/
structure State where
  /-- the general registers x[0..15] (R11) -/
  x : Vector Word 16
  /-- the flag register F (R18) -/
  flags : Flags
  /-- the program counter: the address of the instruction being executed (R14) -/
  pc : Word
  /-- the stack pointer: the address of the top-of-stack word (R21) -/
  sp : BitVec 17
  /-- the unified memory (R38, R41) -/
  mem : Memory
  /-- the call-depth counter (R22) -/
  depth : Nat
  /-- the latch stack_limit: one past the last data byte (R23) -/
  stackLimit : BitVec 17
  /-- the latch data_base: the address of the data section (R24) -/
  dataBase : Addr
  /-- the run state (R25) -/
  state : RunState
  /-- the fault record, while Faulted (R26) -/
  fault : Option FaultRecord
  /-- the exit status, while Halted (R27) -/
  status : Option Word
  /-- the host output trace, oldest event first (R28) -/
  out : List OutEvent
  /-- the MODEL's own: the answers the host has lined up for SYSCALL id 1, the next one first (R139; log entry 4) -/
  hostInput : List HostAnswer
  /-- the MODEL's own: how many free answers of `Config.hostAnswer` have been drawn (R139; log entry 4) -/
  hostReads : Nat
  deriving DecidableEq, Repr

/-- Why a step has no next state. None of these is one of the machine's run-time faults: those are next states. -/
inductive Fault where
  /-- Raised by `step` in state Halted, where "no step exists" (R78). Safe: the hardware has no step there either. -/
  | noStepHalted
  /-- Raised by `step` in state Faulted, where "no step exists" (R78). Safe: the hardware has no step there either. -/
  | noStepFaulted
  /-- Raised by SYSCALL id 1 when the host never answers: the step does not complete and no further state is defined
  (R139, I13). Safe: the hardware waits for ever there. -/
  | hostNeverAnswers
  deriving DecidableEq, Repr

/-- Why the model gives an instruction no meaning. -/
inductive Refusal where
  /-- Raised only by an arm of `exec` whose instruction has no meaning yet. Safe: no claim can rest on it. No arm uses
  it now. -/
  | notModelled (mnemonic : String)
  deriving DecidableEq, Repr

/-- The machine right after reset, before any image is in it (R40, R161): registers and flags 0, sp one past the last
byte, depth 0, memory all zero, Running, no fault, no status, no output. Loading an image is what gives pc, stack_limit
and data_base their values (`loadImage`); with no image they are 0 (DESIGN CHOICE, log entry 1). -/
def State.reset : State where
  x := Vector.replicate 16 0
  flags := ⟨false, false, false, false⟩
  pc := 0
  sp := BitVec.ofNat 17 Config.spInit
  mem := []
  depth := 0
  stackLimit := 0
  dataBase := 0
  state := .running
  fault := none
  status := none
  out := []
  hostInput := []
  hostReads := 0

end Sys2Proof.Machine
end

