-- ==== Sys2Proof/Machine/Ops.lean ====
section
/-! DEFINITION. The named operations over registers, memory, the stack, the host and the run state
(spec/10_state.md rules R30 to R35, spec/20_memory.md), and taking a fault, the machine's exception
(spec/60_exceptions.md rule R145). There is no return from a fault (R147), so no operation for it. -/

namespace Sys2Proof.Machine

/-- What one instruction or one step answers. -/
abbrev Result := Host.Outcome State Fault Refusal

/-! ## Registers (R11, R30) -/

/-- x[i] (R9). -/
def State.reg (s : State) (i : RegIdx) : Word := s.x.get i

/-- x[i] <- v (R9). -/
def State.setReg (s : State) (i : RegIdx) (v : Word) : State := { s with x := s.x.set i.val v i.isLt }

/-- F <- f: all four flags at once (R31). -/
def State.setFlags (s : State) (f : Flags) : State := { s with flags := f }

/-! ## Program counter (R14, R15, R32) -/

/-- next (R9): the address of the byte after an instruction of format `f` at pc. -/
def State.next (s : State) (f : Format) : Word := s.pc + BitVec.ofNat 24 f.width

/-- pc <- next (R15). -/
def State.advance (s : State) (f : Format) : State := { s with pc := s.next f }

/-- pc <- t, a control transfer (R15). -/
def State.jump (s : State) (t : Word) : State := { s with pc := t }

/-! ## Memory (R35, R41 to R47) -/

/-- What an address that memory does not list reads as: 0, the reset contents of every byte outside the image (R40). -/
def Memory.unlisted : Byte := 0

/-- mem[a]: one byte (R41). -/
def Memory.read : Memory → Nat → Byte
  | [], _ => Memory.unlisted
  | (k, b) :: rest, a => if a = k then b else Memory.read rest a

/-- mem[a] <- v: one byte, keeping the list in canonical form. -/
def Memory.write : Memory → Nat → Byte → Memory
  | [], a, v => if v = Memory.unlisted then [] else [(a, v)]
  | (k, b) :: rest, a, v =>
    if a < k then
      if v = Memory.unlisted then (k, b) :: rest else (a, v) :: (k, b) :: rest
    else if a = k then
      if v = Memory.unlisted then rest else (a, v) :: rest
    else (k, b) :: Memory.write rest a v

/-- The canonical form: addresses strictly rising, every listed byte other than the unlisted one, every address one of
the 65,536 (R41). -/
def Memory.wf (m : Memory) : Bool :=
  decide (m.Pairwise fun p q => p.1 < q.1) && m.all fun p => decide (p.2 ≠ Memory.unlisted) && decide (p.1 < Config.memSize)

/-- The n bytes at a..a+n−1, the lowest address first. -/
def Memory.readBytes (m : Memory) (a : Nat) : Nat → List Byte
  | 0 => []
  | n + 1 => m.read a :: Memory.readBytes m (a + 1) n

/-- Writes the bytes at a, a+1, and so on. -/
def Memory.writeBytes (m : Memory) (a : Nat) : List Byte → Memory
  | [] => m
  | b :: bs => Memory.writeBytes (m.write a b) (a + 1) bs

/-- The bounds check of every access (R42): addr + n ≤ 65536, on unbounded naturals. -/
def inBounds (addr n : Nat) : Bool := decide (addr + n ≤ Config.memSize)

/-- The unsigned number that bytes spell little-endian (R45, R9 `MemRead`). -/
def leNat : List Byte → Nat
  | [] => 0
  | b :: bs => b.toNat + 256 * leNat bs

/-- The three bytes of a word in memory, the lowest first (R45). -/
def wordBytes (v : Word) : List Byte :=
  [v.extractLsb' 0 8, v.extractLsb' 8 8, v.extractLsb' 16 8]

/-- ReadWord(a) after its bounds check (R9, R45). -/
def State.readWord (s : State) (a : Nat) : Word :=
  BitVec.ofNat 24 (leNat (s.mem.readBytes a Config.wordBytes))

/-- WriteWord(a, v) after its bounds check (R9, R45). -/
def State.writeWord (s : State) (a : Nat) (v : Word) : State :=
  { s with mem := s.mem.writeBytes a (wordBytes v) }

/-! ## Taking a fault (R80, R144, R145) -/

/-- The code of a fault kind (R144). -/
def ErrorKind.code : ErrorKind → Nat
  | .outOfBounds => 1
  | .stackOverflow => 2
  | .stackUnderflow => 3
  | .recursionLimit => 4
  | .divisionByZero => 5
  | .invalidOpcode => 6
  | .malformedOperand => 7
  | .unknownId => 8
  | .inputUnavailable => 9

/-- The address a record holds: the offending one, capped at 2^24 − 1 (R126, R144). -/
def capAddr (a : Nat) : Word := BitVec.ofNat 24 (min a (2 ^ 24 - 1))

/-- Fault entry (R145): everything stays as it was before the instruction, the record names the kind, the pc of the
faulting instruction and the address, and the state is Faulted. Nothing is pushed and no vector is read. -/
def State.raise (s : State) (k : ErrorKind) (addr : Nat) : State :=
  { s with state := .faulted, fault := some ⟨k, s.pc, capAddr addr⟩ }

/-- `guard cond else raise k` (R9): runs `body` if the guard holds, else takes the fault in `s`. -/
def State.guard (s : State) (cond : Bool) (k : ErrorKind) (addr : Nat) (body : Result) : Result :=
  if cond then body else .next (s.raise k addr)

/-- The end of a run in state Halted with an exit status; pc stays (R27, R141, R143). -/
def State.haltWith (s : State) (status : Word) : State :=
  { s with state := .halted, status := some status }

/-! ## The stack and the call depth (R21, R22, R33) -/

/-- canPush (R33): sp − 3 ≥ stack_limit, over the integers. -/
def State.canPush (s : State) : Bool := decide (s.stackLimit.toNat + Config.wordBytes ≤ s.sp.toNat)

/-- canPop (R33): sp + 3 ≤ 0x10000. -/
def State.canPop (s : State) : Bool := decide (s.sp.toNat + Config.wordBytes ≤ Config.spInit)

/-- The address a push writes to: sp − 3 (R33). -/
def State.pushAddr (s : State) : Nat := s.sp.toNat - Config.wordBytes

/-- The state after the push's writes: the word at sp − 3, then sp <- sp − 3 (R121). -/
def State.pushed (s : State) (v : Word) : State :=
  { s.writeWord s.pushAddr v with sp := BitVec.ofNat 17 s.pushAddr }

/-- The push of PUSH and CALL: the overflow guard, the bounds check of every access (R42), then `k` on the state with
the word pushed. -/
def State.push (s : State) (v : Word) (k : State → Result) : Result :=
  s.guard s.canPush .stackOverflow 0 <|
    s.guard (inBounds s.pushAddr Config.wordBytes) .outOfBounds s.pushAddr <|
      k (s.pushed v)

/-- The top-of-stack word (R21). -/
def State.top (s : State) : Word := s.readWord s.sp.toNat

/-- sp <- sp + 3 (R33). -/
def State.popped (s : State) : State :=
  { s with sp := BitVec.ofNat 17 (s.sp.toNat + Config.wordBytes) }

/-- The underflow guard of POP, PEEK and RET (R122, R123, R136): `body` if a word is on the stack. -/
def State.withTop (s : State) (body : Result) : Result :=
  s.guard s.canPop .stackUnderflow 0 body

/-- canCall (R33): depth + 1 ≤ MAX_STACK_DEPTH. At depth 0 it holds whatever the parameter, which is at least 1
(R6), so a first call can be evaluated. -/
def State.canCall (s : State) (maxDepth : Nat) : Bool := s.depth == 0 || decide (s.depth + 1 ≤ maxDepth)

/-- canReturn (R33): depth > 0. -/
def State.canReturn (s : State) : Bool := decide (0 < s.depth)

/-- inc (R33). -/
def State.incDepth (s : State) : State := { s with depth := s.depth + 1 }

/-- dec (R33). -/
def State.decDepth (s : State) : State := { s with depth := s.depth - 1 }

/-! ## The host (R28, R139, R158) -/

/-- emit e (R9): appends an event to the output trace. -/
def State.emit (s : State) (e : OutEvent) : State := { s with out := s.out ++ [e] }

/-- hostRead() (R139): the answer the host has lined up, or else a free answer (log entry 4). -/
def State.hostAnswer (s : State) : HostAnswer :=
  match s.hostInput with
  | h :: _ => h
  | [] => Config.hostAnswer s.hostReads

/-- The state once the answer of `State.hostAnswer` has been taken: it is not given twice. -/
def State.takeAnswer (s : State) : State :=
  match s.hostInput with
  | _ :: rest => { s with hostInput := rest }
  | [] => { s with hostReads := s.hostReads + 1 }

/-! ## Fetch (R36, R46, R66) -/

/-- The bytes a fetch can see: from pc upwards, at most seven of them, none at an address of 65,536 or more (R66). -/
def State.fetchWindow (s : State) : List Byte :=
  s.mem.readBytes s.pc.toNat (min maxWidth (Config.memSize - s.pc.toNat))

/-- The fault of a failed decode (R66): a fetch beyond memory records pc as the offending address, the two decode
errors record 0. -/
def State.raiseDecode (s : State) : DecodeError → State
  | .truncated => s.raise .outOfBounds s.pc.toNat
  | .invalidOpcode => s.raise .invalidOpcode 0
  | .malformedOperand => s.raise .malformedOperand 0

/-- The part of a list of bytes placed at address a that lies in memory. -/
def clipToMemory (a : Nat) (bs : List Byte) : List Byte := bs.take (Config.memSize - a)

end Sys2Proof.Machine
end

