-- ==== Sys2Proof/Machine/Flags.lean ====
section
/-! DEFINITION. The flag computations (spec/40_engine.md rules R83 and R84) and the conditions of the conditional jumps
(R95). -/

namespace Sys2Proof.Machine

/-- Z of a result word (R83): u(r) = 0. -/
def flagZ (r : Word) : Bool := decide (r.toNat = 0)

/-- N of a result word (R83): its bit 23. -/
def flagN (r : Word) : Bool := r.getLsbD 23

/-- ovf(t) of an exact signed result (R84): t is outside −2^23 .. 2^23 − 1. -/
def ovf (t : Int) : Bool := decide (t < -2 ^ 23 ∨ 2 ^ 23 - 1 < t)

/-- The four flags of a result word with the given C and V (R83). -/
def flagsOf (r : Word) (c v : Bool) : Flags := ⟨flagZ r, flagN r, c, v⟩

/-- EQ (R95): Z. -/
def condEq (f : Flags) : Bool := f.z

/-- NE (R95): ¬Z. -/
def condNe (f : Flags) : Bool := !f.z

/-- GT, signed (R95): ¬Z ∧ N = V. -/
def condGt (f : Flags) : Bool := !f.z && f.n == f.v

/-- LT, signed (R95): N ≠ V. -/
def condLt (f : Flags) : Bool := f.n != f.v

/-- GTU, unsigned (R95): ¬C ∧ ¬Z. -/
def condGtu (f : Flags) : Bool := !f.c && !f.z

/-- LTU, unsigned (R95): C. -/
def condLtu (f : Flags) : Bool := f.c

end Sys2Proof.Machine
end

