-- ==== Sys2Proof/Machine/Alu.lean ====
section
/-! DEFINITION. The ALU (spec/10_state.md rule R34, spec/40_engine.md rules R83 to R94): pure functions of the operand
words, each giving a result word and the four flags. Results are computed exactly on integers and narrowed once. -/

namespace Sys2Proof.Machine

/-- What the ALU answers: a result word and the four flags (R34). -/
structure AluOut where
  r : Word
  f : Flags
  deriving DecidableEq, Repr

/-- A result word with Z and N taken from it (R83). -/
def aluOut (r : Word) (c v : Bool) : AluOut := ⟨r, flagsOf r c v⟩

/-- add(a, b) (R85). -/
def aluAdd (a b : Word) : AluOut :=
  aluOut (wrap (a.toNat + b.toNat)) (decide (2 ^ 24 ≤ a.toNat + b.toNat)) (ovf (a.toInt + b.toInt))

/-- sub(a, b) (R86): C is a borrow. -/
def aluSub (a b : Word) : AluOut :=
  aluOut (wrap (a.toNat - b.toNat)) (decide (a.toNat < b.toNat)) (ovf (a.toInt - b.toInt))

/-- mul(a, b) (R87): the low 24 bits of the product. -/
def aluMul (a b : Word) : AluOut :=
  aluOut (wrap (a.toNat * b.toNat)) (decide (2 ^ 24 ≤ a.toNat * b.toNat)) (ovf (a.toInt * b.toInt))

/-- trunc(s(a) / s(b)) (R88): the exact quotient rounded toward zero. -/
def quotient (a b : Word) : Int := a.toInt.tdiv b.toInt

/-- div(a, b) for b ≠ 0 (R88); DivByZero is the guard of the instructions. -/
def aluDiv (a b : Word) : AluOut := aluOut (wrap (quotient a b)) false (ovf (quotient a b))

/-- mod(a, b) for b ≠ 0 (R89): the remainder has the sign of the dividend. -/
def aluMod (a b : Word) : AluOut := aluOut (wrap (a.toInt - quotient a b * b.toInt)) false false

/-- and(a, b) (R90). -/
def aluAnd (a b : Word) : AluOut := aluOut (a &&& b) false false

/-- or(a, b) (R90). -/
def aluOr (a b : Word) : AluOut := aluOut (a ||| b) false false

/-- xor(a, b) (R90). -/
def aluXor (a b : Word) : AluOut := aluOut (a ^^^ b) false false

/-- not(a) (R91). -/
def aluNot (a : Word) : AluOut := aluOut (~~~a) false false

/-- shl(a, b) (R92): the count is u(b); from 24 on the result is 0. -/
def aluShl (a b : Word) : AluOut :=
  aluOut (if b.toNat < 24 then wrap (a.toNat * 2 ^ b.toNat) else 0) false false

/-- shr(a, b) (R93): logical; from a count of 24 on the result is 0. -/
def aluShr (a b : Word) : AluOut :=
  aluOut (if b.toNat < 24 then wrap (a.toNat / 2 ^ b.toNat) else 0) false false

/-- `(r, f) <- op(…); x[rd] <- r; F <- f; pc <- next`: how every ALU instruction ends (spec/42_arithmetic.md,
spec/43_bitwise.md). -/
def State.writeAlu (s : State) (rd : RegIdx) (o : AluOut) (f : Format) : State :=
  ((s.setReg rd o.r).setFlags o.f).advance f

/-- The guard of DIV and MOD in every shape (R102, R103): u(divisor) ≠ 0 else ArithmeticError(DivisionByZero). -/
def State.guardDivisor (s : State) (divisor : Word) (body : Result) : Result :=
  s.guard (decide (divisor.toNat ≠ 0)) .divisionByZero 0 body

end Sys2Proof.Machine
end

