-- ==== Sys2Proof/Machine/Arith.lean ====
section
/-! DEFINITION. Arithmetic and compare (spec/42_arithmetic.md rules R99 to R114). -/

namespace Sys2Proof.Machine

/-! ## Three-register forms -/

/-- ADD (R99): x[rd] <- x[ra] + x[rb]. -/
def execAdd (rd ra rb : RegIdx) (s : State) : Result :=
  .next (s.writeAlu rd (aluAdd (s.reg ra) (s.reg rb)) .rrr)

/-- SUB (R100): x[rd] <- x[ra] − x[rb]. -/
def execSub (rd ra rb : RegIdx) (s : State) : Result :=
  .next (s.writeAlu rd (aluSub (s.reg ra) (s.reg rb)) .rrr)

/-- MUL (R101): x[rd] <- x[ra] × x[rb]. -/
def execMul (rd ra rb : RegIdx) (s : State) : Result :=
  .next (s.writeAlu rd (aluMul (s.reg ra) (s.reg rb)) .rrr)

/-- DIV (R102): x[rd] <- x[ra] ÷ x[rb]. A zero divisor faults. -/
def execDiv (rd ra rb : RegIdx) (s : State) : Result :=
  s.guardDivisor (s.reg rb) <| .next (s.writeAlu rd (aluDiv (s.reg ra) (s.reg rb)) .rrr)

/-- MOD (R103): x[rd] <- x[ra] % x[rb]. A zero divisor faults. -/
def execMod (rd ra rb : RegIdx) (s : State) : Result :=
  s.guardDivisor (s.reg rb) <| .next (s.writeAlu rd (aluMod (s.reg ra) (s.reg rb)) .rrr)

/-! ## Register-immediate forms -/

/-- ADDI (R104): x[rd] <- x[ra] + imm. -/
def execAddi (rd ra : RegIdx) (imm : Word) (s : State) : Result :=
  .next (s.writeAlu rd (aluAdd (s.reg ra) imm) .rri)

/-- SUBI (R105): x[rd] <- x[ra] − imm. -/
def execSubi (rd ra : RegIdx) (imm : Word) (s : State) : Result :=
  .next (s.writeAlu rd (aluSub (s.reg ra) imm) .rri)

/-- MULI (R106): x[rd] <- x[ra] × imm. -/
def execMuli (rd ra : RegIdx) (imm : Word) (s : State) : Result :=
  .next (s.writeAlu rd (aluMul (s.reg ra) imm) .rri)

/-- DIVI (R107): x[rd] <- x[ra] ÷ imm. A zero divisor faults. -/
def execDivi (rd ra : RegIdx) (imm : Word) (s : State) : Result :=
  s.guardDivisor imm <| .next (s.writeAlu rd (aluDiv (s.reg ra) imm) .rri)

/-- MODI (R108): x[rd] <- x[ra] % imm. A zero divisor faults. -/
def execModi (rd ra : RegIdx) (imm : Word) (s : State) : Result :=
  s.guardDivisor imm <| .next (s.writeAlu rd (aluMod (s.reg ra) imm) .rri)

/-! ## Compound-assignment forms: the destination is the first source -/

/-- ADDA (R109): x[rd] <- x[rd] + x[rs]. -/
def execAdda (rd rs : RegIdx) (s : State) : Result :=
  .next (s.writeAlu rd (aluAdd (s.reg rd) (s.reg rs)) .rr)

/-- SUBA (R110): x[rd] <- x[rd] − x[rs]. -/
def execSuba (rd rs : RegIdx) (s : State) : Result :=
  .next (s.writeAlu rd (aluSub (s.reg rd) (s.reg rs)) .rr)

/-- MULA (R111): x[rd] <- x[rd] × x[rs]. -/
def execMula (rd rs : RegIdx) (s : State) : Result :=
  .next (s.writeAlu rd (aluMul (s.reg rd) (s.reg rs)) .rr)

/-- DIVA (R112): x[rd] <- x[rd] ÷ x[rs]. A zero divisor faults. -/
def execDiva (rd rs : RegIdx) (s : State) : Result :=
  s.guardDivisor (s.reg rs) <| .next (s.writeAlu rd (aluDiv (s.reg rd) (s.reg rs)) .rr)

/-- MODA (R113): x[rd] <- x[rd] % x[rs]. A zero divisor faults. -/
def execModa (rd rs : RegIdx) (s : State) : Result :=
  s.guardDivisor (s.reg rs) <| .next (s.writeAlu rd (aluMod (s.reg rd) (s.reg rs)) .rr)

/-! ## Compare -/

/-- CMP (R114): the flags of x[ra] − x[rb]; no register is written. -/
def execCmp (ra rb : RegIdx) (s : State) : Result :=
  .next ((s.setFlags (aluSub (s.reg ra) (s.reg rb)).f).advance .rr)

end Sys2Proof.Machine
end

