-- ==== Sys2Proof/Machine/Bitwise.lean ====
section
/-! DEFINITION. Bitwise and shift instructions (spec/43_bitwise.md rules R115 to R120): Z and N from the result, C and V cleared. -/

namespace Sys2Proof.Machine

/-- AND (R115). -/
def execAnd (rd ra rb : RegIdx) (s : State) : Result :=
  .next (s.writeAlu rd (aluAnd (s.reg ra) (s.reg rb)) .rrr)

/-- OR (R116). -/
def execOr (rd ra rb : RegIdx) (s : State) : Result :=
  .next (s.writeAlu rd (aluOr (s.reg ra) (s.reg rb)) .rrr)

/-- XOR (R117). -/
def execXor (rd ra rb : RegIdx) (s : State) : Result :=
  .next (s.writeAlu rd (aluXor (s.reg ra) (s.reg rb)) .rrr)

/-- NOT (R118). -/
def execNot (rd rs : RegIdx) (s : State) : Result :=
  .next (s.writeAlu rd (aluNot (s.reg rs)) .rr)

/-- SHL (R119): the count is u(x[rb]). -/
def execShl (rd ra rb : RegIdx) (s : State) : Result :=
  .next (s.writeAlu rd (aluShl (s.reg ra) (s.reg rb)) .rrr)

/-- SHR (R120): the count is u(x[rb]). -/
def execShr (rd ra rb : RegIdx) (s : State) : Result :=
  .next (s.writeAlu rd (aluShr (s.reg ra) (s.reg rb)) .rrr)

end Sys2Proof.Machine
end

