-- ==== Sys2Proof/Machine/Operands.lean ====
section
/-! DEFINITION. The operand forms that address memory (spec/45_memory_access.md): register indirect and base plus
scaled index, on unbounded naturals, and the guarded load and store of one word. -/

namespace Sys2Proof.Machine

/-- Register indirect (R124): u(x[ra]). -/
def State.indirect (s : State) (ra : RegIdx) : Nat := (s.reg ra).toNat

/-- Base plus scaled index (R126): base + 3 · u(x[ri]); it never wraps. -/
def State.indexed (s : State) (base : Addr) (ri : RegIdx) : Nat :=
  base.toNat + Config.wordBytes * (s.reg ri).toNat

/-- Loads the word at a into x[rd] after its bounds check (R124, R126). -/
def State.loadTo (s : State) (rd : RegIdx) (a : Nat) (f : Format) : Result :=
  s.guard (inBounds a Config.wordBytes) .outOfBounds a <|
    .next ((s.setReg rd (s.readWord a)).advance f)

/-- Stores a word at a after its bounds check (R125, R127). -/
def State.storeAt (s : State) (a : Nat) (v : Word) (f : Format) : Result :=
  s.guard (inBounds a Config.wordBytes) .outOfBounds a <|
    .next ((s.writeWord a v).advance f)

/-- Takes a jump to a 16-bit target if the condition holds, else goes on (R129 to R134). -/
def State.jumpIf (s : State) (cond : Bool) (target : Addr) : Result :=
  if cond then .next (s.jump (zext target)) else .next (s.advance .a)

end Sys2Proof.Machine
end

