-- ==== Sys2Proof/Machine/Control.lean ====
section
/-! DEFINITION. Jumps, call and return (spec/46_control.md rules R128 to R136). Targets are absolute and not checked until the next fetch. -/

namespace Sys2Proof.Machine

/-- JMP (R128). -/
def execJmp (target : Addr) (s : State) : Result :=
  .next (s.jump (zext target))

/-- JEQ (R129): equal. -/
def execJeq (target : Addr) (s : State) : Result :=
  s.jumpIf (condEq s.flags) target

/-- JNE (R130): not equal. -/
def execJne (target : Addr) (s : State) : Result :=
  s.jumpIf (condNe s.flags) target

/-- JGT (R131): signed greater. -/
def execJgt (target : Addr) (s : State) : Result :=
  s.jumpIf (condGt s.flags) target

/-- JLT (R132): signed less. -/
def execJlt (target : Addr) (s : State) : Result :=
  s.jumpIf (condLt s.flags) target

/-- JGTU (R133): unsigned greater. -/
def execJgtu (target : Addr) (s : State) : Result :=
  s.jumpIf (condGtu s.flags) target

/-- JLTU (R134): unsigned less. -/
def execJltu (target : Addr) (s : State) : Result :=
  s.jumpIf (condLtu s.flags) target

/-- CALL with the recursion bound as an argument (R135): the depth guard comes before the push. -/
def State.callWith (s : State) (maxDepth : Nat) (target : Addr) : Result :=
  s.guard (s.canCall maxDepth) .recursionLimit 0 <|
    s.push (s.next .a) fun t => .next (t.incDepth.jump (zext target))

/-- CALL (R135), bounded by MAX_STACK_DEPTH. -/
def execCall (target : Addr) (s : State) : Result :=
  s.callWith Config.maxStackDepth target

/-- RET (R136): the depth guard comes first, pc takes the full 24-bit word. -/
def execRet (s : State) : Result :=
  s.guard s.canReturn .stackUnderflow 0 <|
    s.withTop <| .next (s.popped.decDepth.jump s.top)

end Sys2Proof.Machine
end

