-- ==== Sys2Proof/Machine/MemAccess.lean ====
section
/-! DEFINITION. Memory and indexed array access (spec/45_memory_access.md rules R124 to R127). None writes the flags. -/

namespace Sys2Proof.Machine

/-- LOAD (R124). -/
def execLoad (rd ra : RegIdx) (s : State) : Result :=
  s.loadTo rd (s.indirect ra) .rr

/-- STORE (R125). -/
def execStore (rs ra : RegIdx) (s : State) : Result :=
  s.storeAt (s.indirect ra) (s.reg rs) .rr

/-- ALOAD (R126). -/
def execAload (rd : RegIdx) (base : Addr) (ri : RegIdx) (s : State) : Result :=
  s.loadTo rd (s.indexed base ri) .rar

/-- ASTORE (R127). -/
def execAstore (base : Addr) (ri rs : RegIdx) (s : State) : Result :=
  s.storeAt (s.indexed base ri) (s.reg rs) .arr

end Sys2Proof.Machine
end

