-- ==== Sys2Proof/Machine/Move.lean ====
section
/-! DEFINITION. Load-immediate and data movement (spec/41_load_move.md rules R96 to R98). None writes the flags. -/

namespace Sys2Proof.Machine

/-- LOADI (R96): x[rd] <- imm. -/
def execLoadi (rd : RegIdx) (imm : Word) (s : State) : Result :=
  .next ((s.setReg rd imm).advance .ri)

/-- MOV (R97): x[rd] <- x[rs]. -/
def execMov (rd rs : RegIdx) (s : State) : Result :=
  .next ((s.setReg rd (s.reg rs)).advance .rr)

/-- SWAP (R98): both registers are read before either is written. -/
def execSwap (ra rb : RegIdx) (s : State) : Result :=
  .next (((s.setReg ra (s.reg rb)).setReg rb (s.reg ra)).advance .rr)

end Sys2Proof.Machine
end

