-- ==== Sys2Proof/Machine/Stack.lean ====
section
/-! DEFINITION. Stack instructions (spec/44_stack.md rules R121 to R123). None writes the flags. -/

namespace Sys2Proof.Machine

/-- PUSH (R121). -/
def execPush (rs : RegIdx) (s : State) : Result :=
  s.push (s.reg rs) fun t => .next (t.advance .r)

/-- POP (R122): the bytes of the word stay in memory. -/
def execPop (rd : RegIdx) (s : State) : Result :=
  s.withTop <| .next ((s.popped.setReg rd s.top).advance .r)

/-- PEEK (R123): sp does not move. -/
def execPeek (rd : RegIdx) (s : State) : Result :=
  s.withTop <| .next ((s.setReg rd s.top).advance .r)

end Sys2Proof.Machine
end

