-- ==== Sys2Proof/Machine/System.lean ====
section
/-! DEFINITION. SYSCALL and HALT (spec/47_system.md rules R137 to R143). Neither writes the flags. -/

namespace Sys2Proof.Machine

/-- SYSCALL id 0 (R138): prints x[r], signed. -/
def State.printInt (s : State) (r : RegIdx) : Result :=
  .next ((s.emit (.outInt (s.reg r).toInt)).advance .ira)

/-- SYSCALL id 1 (R139): the answer decides. An integer goes into x[r] modulo 2^24; no input faults; an answer that
never comes leaves no next state (I13). -/
def State.readInt (s : State) (r : RegIdx) : Result :=
  match s.hostAnswer with
  | .int n => .next ((s.takeAnswer.setReg r (wrap n)).advance .ira)
  | .noInput => .next (s.raise .inputUnavailable 0)
  | .never => .fault .hostNeverAnswers

/-- The address of the string of SYSCALL id 2 (R140): data_base + off, unwrapped. -/
def State.stringAddr (s : State) (off : Addr) : Nat := s.dataBase.toNat + off.toNat

/-- The length prefix of the string at a: two bytes, little-endian (R140). -/
def State.stringLen (s : State) (a : Nat) : Nat := leNat (s.mem.readBytes a 2)

/-- SYSCALL id 2 (R140): prints the length-prefixed string at data_base + off; both bounds are checked before anything
is emitted. -/
def State.printStr (s : State) (off : Addr) : Result :=
  let a := s.stringAddr off
  s.guard (inBounds a 2) .outOfBounds a <|
    s.guard (inBounds (a + 2) (s.stringLen a)) .outOfBounds (a + 2) <|
      .next ((s.emit (.outStr (s.mem.readBytes (a + 2) (s.stringLen a)))).advance .ira)

/-- SYSCALL (R137 to R142): all 24 bits of the id choose the service; any id but 0 to 3 faults. -/
def execSyscall (id : Word) (r : RegIdx) (off : Addr) (s : State) : Result :=
  match id.toNat with
  | 0 => s.printInt r
  | 1 => s.readInt r
  | 2 => s.printStr off
  | 3 => .next (s.haltWith (s.reg r))
  | _ => .next (s.raise .unknownId 0)

/-- HALT (R143): status 0; pc stays at the HALT. -/
def execHalt (s : State) : Result :=
  .next (s.haltWith 0)

end Sys2Proof.Machine
end

