-- ==== Sys2Proof/Machine/Dispatch.lean ====
section
/-! DEFINITION. The dispatch: one arm per constructor of Instr (spec/40_engine.md rule R79). -/

namespace Sys2Proof.Machine

def exec (i : Instr) (s : State) : Host.Outcome State Fault Refusal :=
  match i with
  | .halt => Sys2Proof.Machine.execHalt s
  | .loadi rd imm => Sys2Proof.Machine.execLoadi rd imm s
  | .mov rd rs => Sys2Proof.Machine.execMov rd rs s
  | .swap ra rb => Sys2Proof.Machine.execSwap ra rb s
  | .add rd ra rb => Sys2Proof.Machine.execAdd rd ra rb s
  | .sub rd ra rb => Sys2Proof.Machine.execSub rd ra rb s
  | .mul rd ra rb => Sys2Proof.Machine.execMul rd ra rb s
  | .div rd ra rb => Sys2Proof.Machine.execDiv rd ra rb s
  | .mod rd ra rb => Sys2Proof.Machine.execMod rd ra rb s
  | .addi rd ra imm => Sys2Proof.Machine.execAddi rd ra imm s
  | .subi rd ra imm => Sys2Proof.Machine.execSubi rd ra imm s
  | .muli rd ra imm => Sys2Proof.Machine.execMuli rd ra imm s
  | .divi rd ra imm => Sys2Proof.Machine.execDivi rd ra imm s
  | .modi rd ra imm => Sys2Proof.Machine.execModi rd ra imm s
  | .adda rd rs => Sys2Proof.Machine.execAdda rd rs s
  | .suba rd rs => Sys2Proof.Machine.execSuba rd rs s
  | .mula rd rs => Sys2Proof.Machine.execMula rd rs s
  | .diva rd rs => Sys2Proof.Machine.execDiva rd rs s
  | .moda rd rs => Sys2Proof.Machine.execModa rd rs s
  | .cmp ra rb => Sys2Proof.Machine.execCmp ra rb s
  | .and rd ra rb => Sys2Proof.Machine.execAnd rd ra rb s
  | .or rd ra rb => Sys2Proof.Machine.execOr rd ra rb s
  | .xor rd ra rb => Sys2Proof.Machine.execXor rd ra rb s
  | .not rd rs => Sys2Proof.Machine.execNot rd rs s
  | .shl rd ra rb => Sys2Proof.Machine.execShl rd ra rb s
  | .shr rd ra rb => Sys2Proof.Machine.execShr rd ra rb s
  | .push rs => Sys2Proof.Machine.execPush rs s
  | .pop rd => Sys2Proof.Machine.execPop rd s
  | .peek rd => Sys2Proof.Machine.execPeek rd s
  | .load rd ra => Sys2Proof.Machine.execLoad rd ra s
  | .store rs ra => Sys2Proof.Machine.execStore rs ra s
  | .aload rd base ri => Sys2Proof.Machine.execAload rd base ri s
  | .astore base ri rs => Sys2Proof.Machine.execAstore base ri rs s
  | .jmp target => Sys2Proof.Machine.execJmp target s
  | .jeq target => Sys2Proof.Machine.execJeq target s
  | .jne target => Sys2Proof.Machine.execJne target s
  | .jgt target => Sys2Proof.Machine.execJgt target s
  | .jlt target => Sys2Proof.Machine.execJlt target s
  | .jgtu target => Sys2Proof.Machine.execJgtu target s
  | .jltu target => Sys2Proof.Machine.execJltu target s
  | .call target => Sys2Proof.Machine.execCall target s
  | .ret => Sys2Proof.Machine.execRet s
  | .syscall id r off => Sys2Proof.Machine.execSyscall id r off s

end Sys2Proof.Machine
end

