-- ==== Sys2Proof/Machine/Step.lean ====
section
/-! DEFINITION. One step of the fetch-decode-execute loop (spec/40_engine.md rules R78 and R79), and the placing of an
instruction where the step fetches it. -/

namespace Sys2Proof.Machine

/-- One step (R79): only Running has one (R78). A decode that fails takes its fault (R66); otherwise the decoded
instruction runs, and writes the pc itself. -/
def step (s : State) : Host.Outcome State Fault Refusal :=
  match s.state with
  | .halted => .fault .noStepHalted
  | .faulted => .fault .noStepFaulted
  | .running =>
    match decode s.fetchWindow with
    | .error e => .next (s.raiseDecode e)
    | .ok (i, _) => exec i s

/-- The state with an opcode table word stored where the step fetches: seven bytes from pc up, those that lie in
memory (log entry 8). Nothing else changes. -/
def State.withFetchWord (s : State) (nbits w : Nat) : State :=
  { s with mem := s.mem.writeBytes s.pc.toNat (clipToMemory s.pc.toNat (tableBytes nbits w)) }

end Sys2Proof.Machine
end

