-- ==== Sys2Proof/Machine/Loader.lean ====
section
/-! DEFINITION. The binary image and its loading, the machine's reset (spec/70_reset_and_hazards.md rules R159 to R163),
and the image a header and two sections make (R159, R75). -/

namespace Sys2Proof.Machine

/-- Memory holding the bytes from address a up, in canonical form: a byte equal to the unlisted one is not listed. -/
def Memory.ofBytes (a : Nat) : List Byte → Memory
  | [] => []
  | b :: bs => if b = Memory.unlisted then Memory.ofBytes (a + 1) bs else (a, b) :: Memory.ofBytes (a + 1) bs

/-- The state a run starts in (R40, R161): the reset state with the image's code at 0, its data right after it, pc at the
entry offset and the two latches set. -/
def State.loaded (entry : Nat) (code data : List Byte) : State :=
  { State.reset with
    pc := BitVec.ofNat 24 entry
    mem := Memory.ofBytes 0 (code ++ data)
    dataBase := BitVec.ofNat 16 code.length
    stackLimit := BitVec.ofNat 17 (code.length + data.length) }

/-- The loader with the magic as an argument (R6, R159, R160): an 11-byte header (magic, version, entry offset, code
length, data length, little-endian), then the code, then the data. `none` is a refusal: no run starts and no state is
created. -/
def loadImageWith (magic : List Byte) (image : List Byte) : Option State :=
  match image with
  | m0 :: m1 :: m2 :: m3 :: version :: e0 :: e1 :: c0 :: c1 :: d0 :: d1 :: body =>
    let entry := leNat [e0, e1]
    let codeLen := leNat [c0, c1]
    let dataLen := leNat [d0, d1]
    if [m0, m1, m2, m3] = magic ∧ version = Config.encodingVersion ∧ body.length = codeLen + dataLen ∧
        codeLen + dataLen ≤ Config.memSize ∧ entry < codeLen then
      some (State.loaded entry (body.take codeLen) (body.drop codeLen))
    else none
  | _ => none

/-- The loader (R159 to R161) with the machine's own magic. -/
def loadImage (image : List Byte) : Option State := loadImageWith Config.imageMagic.toList image

/-- A 2-byte header field, low byte first (R45, R159). -/
def le16 (n : Nat) : List Byte := [BitVec.ofNat 8 n, BitVec.ofNat 8 (n / 256)]

/-- The image of a program (R159). -/
def buildImage (magic : List Byte) (entry : Nat) (code data : List Byte) : List Byte :=
  magic ++ [Config.encodingVersion] ++ le16 entry ++ le16 code.length ++ le16 data.length ++ code ++ data

/-- A string literal in the data section (R75): its 2-byte length, then its bytes. -/
def stringLiteral (bs : List Byte) : List Byte := le16 bs.length ++ bs

end Sys2Proof.Machine
end

