-- ==== Sys2Proof/Safety.lean ====
section
/-! DEFINITION. The terms claims are stated in: the invariant of the machine, what a run shows at its end, and what an
instruction changes and leaves unchanged. -/

namespace Sys2Proof.Machine

/-! ## The invariant -/

/-- What holds of the machine before and after every step: memory is in canonical form (R41), sp lies between
stack_limit and 0x10000 (R21), the data section ends at or below stack_limit (R51), the call depth is bounded (R22), the
fault record is there exactly in Faulted and the status exactly in Halted (R26, R27), and a record names the pc at which
the machine stands, with address 0 unless it is a memory error (R144, R145). -/
structure Inv (s : State) : Prop where
  mem_wf : s.mem.wf = true
  limit_le_sp : s.stackLimit.toNat ≤ s.sp.toNat
  sp_le_top : s.sp.toNat ≤ 65536
  data_le_limit : s.dataBase.toNat ≤ s.stackLimit.toNat
  depth_le_max : s.depth ≤ Config.maxStackDepth
  fault_iff : s.fault.isSome = true ↔ s.state = .faulted
  status_iff : s.status.isSome = true ↔ s.state = .halted
  record_pc : ∀ r, s.fault = some r → r.pc = s.pc
  record_addr : ∀ r, s.fault = some r → r.kind ≠ .outOfBounds → r.addr = 0

/-! ## The end of a run -/

/-- What the caller observes at the end of a run (R82, R158). -/
structure Observation where
  state : RunState
  x : Vector Word 16
  flags : Flags
  pc : Word
  sp : BitVec 17
  depth : Nat
  mem : Memory
  status : Option Word
  fault : Option FaultRecord
  out : List OutEvent
  deriving DecidableEq, Repr

/-- The observation of a run that has ended; a running machine shows none (R82). -/
def State.observe (s : State) : Option Observation :=
  match s.state with
  | .running => none
  | _ => some ⟨s.state, s.x, s.flags, s.pc, s.sp, s.depth, s.mem, s.status, s.fault, s.out⟩

/-- A run ends well in Halted, "the only non-error terminal state" (R25). -/
def State.endedWell (s : State) : Bool := decide (s.state = .halted)

/-! ## Frames -/

/-- No byte of memory differs. -/
def SameMem (s t : State) : Prop := ∀ a, t.mem.read a = s.mem.read a

/-- No byte of memory differs but the three at `a`. -/
def SameMemOutsideWord (s t : State) (a : Nat) : Prop :=
  ∀ k, k < a ∨ a + 3 ≤ k → t.mem.read k = s.mem.read k

/-- The three bytes at `a` hold the word `v`, little-endian (R45). -/
def HoldsWord (t : State) (a : Nat) (v : Word) : Prop :=
  (t.mem.read a).toNat = v.toNat % 256 ∧ (t.mem.read (a + 1)).toNat = v.toNat / 256 % 256 ∧
    (t.mem.read (a + 2)).toNat = v.toNat / 65536

/-- ReadWord(a) of R45, written on bytes. -/
def wordAt (s : State) (a : Nat) : Word :=
  BitVec.ofNat 24 ((s.mem.read a).toNat + 256 * (s.mem.read (a + 1)).toNat + 65536 * (s.mem.read (a + 2)).toNat)

/-- Register `rd` holds `v` and no other register differs. -/
def OnlyReg (s t : State) (rd : RegIdx) (v : Word) : Prop :=
  t.reg rd = v ∧ ∀ j, j ≠ rd → t.reg j = s.reg j

/-- No general register differs. -/
def SameRegs (s t : State) : Prop := ∀ j, t.reg j = s.reg j

/-- Stack pointer and call depth do not differ. -/
def SameStack (s t : State) : Prop := t.sp = s.sp ∧ t.depth = s.depth

/-- The two latches set at load do not differ (R23, R24). -/
def SameLatches (s t : State) : Prop := t.stackLimit = s.stackLimit ∧ t.dataBase = s.dataBase

/-- Run state, fault record and status do not differ. -/
def SameRun (s t : State) : Prop := t.state = s.state ∧ t.fault = s.fault ∧ t.status = s.status

/-- Output trace and the host's answers do not differ. -/
def SameHost (s t : State) : Prop :=
  t.out = s.out ∧ t.hostInput = s.hostInput ∧ t.hostReads = s.hostReads

/-- Everything but registers, flags, pc, memory, sp and depth does not differ. -/
def SameRest (s t : State) : Prop := SameLatches s t ∧ SameRun s t ∧ SameHost s t

/-- pc has advanced by `width` bytes (R15). -/
def Advanced (s t : State) (width : Nat) : Prop := t.pc = s.pc + BitVec.ofNat 24 width

/-! ## Effects -/

/-- The bytes of an instruction as numbers, in address order. -/
def codeBytes (i : Instr) : List Nat := (encode i).map BitVec.toNat

/-- The three numbers of an immediate, the lowest byte first (R61). -/
def immNats (v : Word) : List Nat := [v.toNat % 256, v.toNat / 256 % 256, v.toNat / 65536]

/-- The two numbers of an address operand, the low byte first (R62). -/
def addrNats (a : Addr) : List Nat := [a.toNat % 256, a.toNat / 256]

/-- An exact signed result that no word holds (R84). -/
def OutOfSigned (t : Int) : Prop := t < -8388608 ∨ 8388607 < t

/-- Z and N are those of the result word, C and V are as given (R83). -/
def FlagsAre (f : Flags) (r : Word) (c v : Prop) : Prop :=
  (f.z = true ↔ r.toNat = 0) ∧ (f.n = true ↔ 8388608 ≤ r.toNat) ∧ (f.c = true ↔ c) ∧ (f.v = true ↔ v)

/-- `i` completes at `s`: x[rd] becomes `r`, the four flags are those of `r` with the given C and V, pc advances by
`width`, and nothing else differs. -/
def AluEffect (i : Instr) (s : State) (rd : RegIdx) (r : Word) (c v : Prop) (width : Nat) : Prop :=
  ∃ t, exec i s = .next t ∧ OnlyReg s t rd r ∧ FlagsAre t.flags r c v ∧ Advanced s t width ∧ SameMem s t ∧
    SameStack s t ∧ SameRest s t

/-- `i` completes at `s`: x[rd] becomes `v`, pc advances by `width`, sp becomes `sp`, and nothing else differs. -/
def LoadEffect (i : Instr) (s : State) (rd : RegIdx) (v : Word) (sp : Nat) (width : Nat) : Prop :=
  ∃ t, exec i s = .next t ∧ OnlyReg s t rd v ∧ t.flags = s.flags ∧ Advanced s t width ∧ SameMem s t ∧
    t.sp.toNat = sp ∧ t.depth = s.depth ∧ SameRest s t

/-- `i` completes at `s`: the word `v` lies at `a`, no other byte differs, and registers, flags, latches, run state and
host do not differ; sp, depth and pc become the given ones. -/
def StoreEffect (i : Instr) (s : State) (a : Nat) (v : Word) (sp depth : Nat) (pc : Word) : Prop :=
  ∃ t, exec i s = .next t ∧ HoldsWord t a v ∧ SameMemOutsideWord s t a ∧ SameRegs s t ∧ t.flags = s.flags ∧
    t.sp.toNat = sp ∧ t.depth = depth ∧ t.pc = pc ∧ SameRest s t

/-- `i` completes at `s` and changes pc alone. -/
def JumpEffect (i : Instr) (s : State) (pc : Word) : Prop := exec i s = .next { s with pc := pc }

/-- The state after fault entry (R145): all as before but Faulted, with the record (kind, pc, addr), addr capped at
2^24 − 1. -/
def faultedState (s : State) (k : ErrorKind) (addr : Nat) : State :=
  { s with state := .faulted, fault := some ⟨k, s.pc, if addr < 2 ^ 24 then BitVec.ofNat 24 addr else 0xFFFFFF⟩ }

/-- `i` takes the fault `k` at `s`: the state is that of R145 and nothing else has changed. -/
def FaultsWith (i : Instr) (s : State) (k : ErrorKind) (addr : Nat) : Prop :=
  exec i s = .next (faultedState s k addr)

/-- The step at `s` takes the fault `k` before any instruction runs. -/
def StepFaults (s : State) (k : ErrorKind) (addr : Nat) : Prop :=
  step s = .next (faultedState s k addr)

/-! ## Which instruction writes what -/

/-- The general registers an instruction may write (R30): SYSCALL writes its register for id 1 only (R139). -/
def destinations : Instr → List RegIdx
  | .loadi rd _ | .mov rd _ | .add rd _ _ | .sub rd _ _ | .mul rd _ _ | .div rd _ _ | .mod rd _ _ | .addi rd _ _
  | .subi rd _ _ | .muli rd _ _ | .divi rd _ _ | .modi rd _ _ | .adda rd _ | .suba rd _ | .mula rd _ | .diva rd _
  | .moda rd _ | .and rd _ _ | .or rd _ _ | .xor rd _ _ | .not rd _ | .shl rd _ _ | .shr rd _ _ | .pop rd | .peek rd
  | .load rd _ | .aload rd _ _ => [rd]
  | .swap ra rb => [ra, rb]
  | .syscall id r _ => if id.toNat = 1 then [r] else []
  | .halt | .cmp .. | .push .. | .store .. | .astore .. | .jmp .. | .jeq .. | .jne .. | .jgt .. | .jlt .. | .jgtu ..
  | .jltu .. | .call .. | .ret => []

/-- The instructions that write the flags (R19). -/
def writesFlags : Instr → Bool
  | .add .. | .sub .. | .mul .. | .div .. | .mod .. | .addi .. | .subi .. | .muli .. | .divi .. | .modi .. | .adda ..
  | .suba .. | .mula .. | .diva .. | .moda .. | .and .. | .or .. | .xor .. | .not .. | .shl .. | .shr .. | .cmp .. => true
  | .halt | .loadi .. | .mov .. | .swap .. | .push .. | .pop .. | .peek .. | .load .. | .store .. | .aload .. | .astore ..
  | .jmp .. | .jeq .. | .jne .. | .jgt .. | .jlt .. | .jgtu .. | .jltu .. | .call .. | .ret | .syscall .. => false

/-- The instructions that read the flags (R20): the six conditional jumps. -/
def readsFlags : Instr → Bool
  | .jeq .. | .jne .. | .jgt .. | .jlt .. | .jgtu .. | .jltu .. => true
  | .halt | .loadi .. | .mov .. | .swap .. | .add .. | .sub .. | .mul .. | .div .. | .mod .. | .addi .. | .subi ..
  | .muli .. | .divi .. | .modi .. | .adda .. | .suba .. | .mula .. | .diva .. | .moda .. | .cmp .. | .and .. | .or ..
  | .xor .. | .not .. | .shl .. | .shr .. | .push .. | .pop .. | .peek .. | .load .. | .store .. | .aload .. | .astore ..
  | .jmp .. | .call .. | .ret | .syscall .. => false

/-- The address an instruction stores its word to, for the four that store (R49): STORE and ASTORE at their operand's
address, PUSH and CALL at sp − 3. -/
def storeAddr (i : Instr) (s : State) : Option Nat :=
  match i with
  | .store _ ra => some (s.indirect ra)
  | .astore base ri _ => some (s.indexed base ri)
  | .push _ | .call _ => some s.pushAddr
  | .halt | .loadi .. | .mov .. | .swap .. | .add .. | .sub .. | .mul .. | .div .. | .mod .. | .addi .. | .subi ..
  | .muli .. | .divi .. | .modi .. | .adda .. | .suba .. | .mula .. | .diva .. | .moda .. | .cmp .. | .and .. | .or ..
  | .xor .. | .not .. | .shl .. | .shr .. | .pop .. | .peek .. | .load .. | .aload .. | .jmp .. | .jeq .. | .jne ..
  | .jgt .. | .jlt .. | .jgtu .. | .jltu .. | .ret | .syscall .. => none

/-- The instructions that may move sp (R21): PUSH and CALL down, POP and RET up. -/
def movesSp : Instr → Bool
  | .push .. | .call .. | .pop .. | .ret => true
  | .halt | .loadi .. | .mov .. | .swap .. | .add .. | .sub .. | .mul .. | .div .. | .mod .. | .addi .. | .subi ..
  | .muli .. | .divi .. | .modi .. | .adda .. | .suba .. | .mula .. | .diva .. | .moda .. | .cmp .. | .and .. | .or ..
  | .xor .. | .not .. | .shl .. | .shr .. | .peek .. | .load .. | .store .. | .aload .. | .astore .. | .jmp .. | .jeq ..
  | .jne .. | .jgt .. | .jlt .. | .jgtu .. | .jltu .. | .syscall .. => false

end Sys2Proof.Machine
end

