-- ==== Sys2Proof/Certificates/Slice0/Obligations.lean ====
section
/-! DEFINITION. The statements for the provers. The terms they are stated in stand in Sys2Proof/Safety.lean. A statement
about one instruction says its bytes, where it completes, what it writes, and that nothing else differs. -/

open Sys2Proof Sys2Proof.Machine

/-! ## Encoding and decoding -/

/-- 30_encoding.md §2 and §4: the decoder gives back every encoded instruction, whatever follows its bytes. -/
def Obligations.DecodeInvertsEncode : Prop :=
  ∀ (i : Instr) (rest : List Byte), decode (encode i ++ rest) = .ok (i, rest)

/-- R69: on any byte sequence the decoder gives an instruction or one refusal; an opcode with operand bytes that fit its
format decodes, whatever its immediates and addresses; the decoded instruction encodes to the bytes it was read from; and
two sequences that decode to one instruction are the same. -/
def Obligations.DecodeIsTotalAndInjective : Prop :=
  (∀ bs, (∃ i rest, decode bs = .ok (i, rest)) ∨ (∃ e, decode bs = .error e)) ∧
  (∀ op row bs, opcodeRow op = some row → operandsOk row.format.operands bs = true →
    ∃ i, decode (op :: bs) = .ok (i, []) ∧ i.format = row.format) ∧
  (∀ bs i rest, decode bs = .ok (i, rest) → encode i ++ rest = bs) ∧
  (∀ bs bs' i, decode bs = .ok (i, []) → decode bs' = .ok (i, []) → bs = bs')

/-- 30_encoding.md §2 and §3: words written out from the formats decode to the instructions they stand for. -/
def Obligations.WrittenOutBytesDecode : Prop :=
  decode [0x02, 0x03, 0x56, 0x34, 0x12] = .ok (.loadi 3 0x123456, []) ∧
  decode [0x19, 0x01, 0x02, 0xFF, 0x00, 0x80] = .ok (.subi 1 2 0x8000FF, []) ∧
  decode [0x49, 0x04, 0x05] = .ok (.store 4 5, []) ∧
  decode [0x4B, 0x34, 0x12, 0x06, 0x07] = .ok (.astore 0x1234 6 7, []) ∧
  decode [0x58, 0xCD, 0xAB] = .ok (.call 0xABCD, []) ∧
  decode [0x60, 0x02, 0x00, 0x01, 0x0F, 0x34, 0x12] = .ok (.syscall 0x010002 15 0x1234, [])

/-- R66 and R67: a step of a running machine makes the four checks in their order, and runs the instruction whose bytes
lie at pc if all pass. -/
def Obligations.FetchChecksInOrder : Prop :=
  ∀ s : State, s.state = .running →
    if 65536 < s.pc.toNat + 1 then StepFaults s .outOfBounds s.pc.toNat
    else match opcodeRow (s.mem.read s.pc.toNat) with
      | none => StepFaults s .invalidOpcode 0
      | some row =>
        if 65536 < s.pc.toNat + row.format.width then StepFaults s .outOfBounds s.pc.toNat
        else if operandsOk row.format.operands (s.mem.readBytes (s.pc.toNat + 1) (row.format.width - 1)) = false then
          StepFaults s .malformedOperand 0
        else ∃ i, encode i = s.mem.readBytes s.pc.toNat row.format.width ∧ i.format = row.format ∧
          step s = exec i s

/-- R68: the 213 bytes that are no opcode, and the fault of a step that fetches one. -/
def Obligations.UnlistedOpcodesFault : Prop :=
  (∀ op : Byte, opcodeRow op = none ↔
    op.toNat = 0 ∨ (0x05 ≤ op.toNat ∧ op.toNat ≤ 0x0F) ∨ (0x15 ≤ op.toNat ∧ op.toNat ≤ 0x17) ∨
    (0x1D ≤ op.toNat ∧ op.toNat ≤ 0x1F) ∨ (0x25 ≤ op.toNat ∧ op.toNat ≤ 0x27) ∨
    (0x29 ≤ op.toNat ∧ op.toNat ≤ 0x2F) ∨ (0x36 ≤ op.toNat ∧ op.toNat ≤ 0x3F) ∨
    (0x43 ≤ op.toNat ∧ op.toNat ≤ 0x47) ∨ (0x4C ≤ op.toNat ∧ op.toNat ≤ 0x4F) ∨ op.toNat = 0x57 ∨
    (0x5A ≤ op.toNat ∧ op.toNat ≤ 0x5F) ∨ 0x61 ≤ op.toNat) ∧
  ((List.range 256).filter fun n => (opcodeRow (BitVec.ofNat 8 n)).isNone).length = 213 ∧
  (∀ s : State, s.state = .running → s.pc.toNat < 65536 → opcodeRow (s.mem.read s.pc.toNat) = none →
    StepFaults s .invalidOpcode 0)

/-- R79: a step runs the instruction that the decoder reads at pc; the instruction itself moves pc. -/
def Obligations.StepRunsDecodedInstruction : Prop :=
  ∀ (s : State) (i : Instr) (rest : List Byte), s.state = .running → decode s.fetchWindow = .ok (i, rest) →
    step s = exec i s

/-- 40_engine.md §1 and 30_encoding.md §4: if the bytes of an instruction lie in memory at pc, the step is that
instruction's. -/
def Obligations.StepRunsTheBytesAtPc : Prop :=
  ∀ (s : State) (i : Instr), s.state = .running → s.pc.toNat + i.width ≤ 65536 →
    s.mem.readBytes s.pc.toNat i.width = encode i → step s = exec i s

/-- R78: a state other than Running has no step. -/
def Obligations.OnlyRunningHasAStep : Prop :=
  ∀ s : State, s.state ≠ .running → ∀ t, step s ≠ .next t

/-- 40_engine.md §1, and the model's way to say that there is no next state (log entries 5 and 6): in Running the step has a
next state, but for a SYSCALL id 1 whose host never answers; in Halted and Faulted it stops by name; nothing is refused. -/
def Obligations.RunningStepCompletes : Prop :=
  ∀ s : State,
    (s.state = .halted → step s = .fault .noStepHalted) ∧
    (s.state = .faulted → step s = .fault .noStepFaulted) ∧
    (s.state = .running → (∃ t, step s = .next t) ∨
      (step s = .fault .hostNeverAnswers ∧ s.hostAnswer = .never ∧
        ∃ id r off rest, decode s.fetchWindow = .ok (.syscall id r off, rest) ∧ id.toNat = 1))

/-! ## Load-immediate and moves -/

/-- R96: LOADI writes its immediate, and no flag. -/
def Obligations.LoadiWritesImmediate : Prop :=
  ∀ (s : State) (rd : RegIdx) (imm : Word),
    codeBytes (.loadi rd imm) = [0x02, rd.val] ++ immNats imm ∧
    LoadEffect (.loadi rd imm) s rd imm s.sp.toNat 5

/-- R97: MOV copies a register, and writes no flag. -/
def Obligations.MovCopiesRegister : Prop :=
  ∀ (s : State) (rd rs : RegIdx),
    codeBytes (.mov rd rs) = [0x03, rd.val, rs.val] ∧
    LoadEffect (.mov rd rs) s rd (s.reg rs) s.sp.toNat 3

/-- R98: SWAP reads both registers before it writes either. -/
def Obligations.SwapExchangesRegisters : Prop :=
  ∀ (s : State) (ra rb : RegIdx),
    codeBytes (.swap ra rb) = [0x04, ra.val, rb.val] ∧
    ∃ t, exec (.swap ra rb) s = .next t ∧ t.reg ra = s.reg rb ∧ t.reg rb = s.reg ra ∧
      (∀ j, j ≠ ra → j ≠ rb → t.reg j = s.reg j) ∧ t.flags = s.flags ∧ Advanced s t 3 ∧ SameMem s t ∧
      SameStack s t ∧ SameRest s t

/-! ## Arithmetic -/

/-- R85, R99, R104, R109: the three additions. -/
def Obligations.AdditionsWriteSum : Prop :=
  ∀ s : State,
    let effect := fun (i : Instr) (rd : RegIdx) (a b : Word) (width : Nat) =>
      AluEffect i s rd (BitVec.ofNat 24 (a.toNat + b.toNat)) (2 ^ 24 ≤ a.toNat + b.toNat)
        (OutOfSigned (a.toInt + b.toInt)) width
    (∀ rd ra rb, codeBytes (.add rd ra rb) = [0x10, rd.val, ra.val, rb.val] ∧
      effect (.add rd ra rb) rd (s.reg ra) (s.reg rb) 4) ∧
    (∀ rd ra imm, codeBytes (.addi rd ra imm) = [0x18, rd.val, ra.val] ++ immNats imm ∧
      effect (.addi rd ra imm) rd (s.reg ra) imm 6) ∧
    (∀ rd rs, codeBytes (.adda rd rs) = [0x20, rd.val, rs.val] ∧
      effect (.adda rd rs) rd (s.reg rd) (s.reg rs) 3)

/-- R86, R100, R105, R110: the three subtractions; C is a borrow. -/
def Obligations.SubtractionsWriteDifference : Prop :=
  ∀ s : State,
    let effect := fun (i : Instr) (rd : RegIdx) (a b : Word) (width : Nat) =>
      AluEffect i s rd (BitVec.ofInt 24 ((a.toNat : Int) - b.toNat)) (a.toNat < b.toNat)
        (OutOfSigned (a.toInt - b.toInt)) width
    (∀ rd ra rb, codeBytes (.sub rd ra rb) = [0x11, rd.val, ra.val, rb.val] ∧
      effect (.sub rd ra rb) rd (s.reg ra) (s.reg rb) 4) ∧
    (∀ rd ra imm, codeBytes (.subi rd ra imm) = [0x19, rd.val, ra.val] ++ immNats imm ∧
      effect (.subi rd ra imm) rd (s.reg ra) imm 6) ∧
    (∀ rd rs, codeBytes (.suba rd rs) = [0x21, rd.val, rs.val] ∧
      effect (.suba rd rs) rd (s.reg rd) (s.reg rs) 3)

/-- R87, R101, R106, R111: the three multiplications write the low 24 bits, which are those of the signed product too. -/
def Obligations.MultiplicationsWriteProduct : Prop :=
  ∀ s : State,
    let effect := fun (i : Instr) (rd : RegIdx) (a b : Word) (width : Nat) =>
      AluEffect i s rd (BitVec.ofNat 24 (a.toNat * b.toNat)) (2 ^ 24 ≤ a.toNat * b.toNat)
        (OutOfSigned (a.toInt * b.toInt)) width ∧
      (BitVec.ofNat 24 (a.toNat * b.toNat) : Word) = BitVec.ofInt 24 (a.toInt * b.toInt)
    (∀ rd ra rb, codeBytes (.mul rd ra rb) = [0x12, rd.val, ra.val, rb.val] ∧
      effect (.mul rd ra rb) rd (s.reg ra) (s.reg rb) 4) ∧
    (∀ rd ra imm, codeBytes (.muli rd ra imm) = [0x1A, rd.val, ra.val] ++ immNats imm ∧
      effect (.muli rd ra imm) rd (s.reg ra) imm 6) ∧
    (∀ rd rs, codeBytes (.mula rd rs) = [0x22, rd.val, rs.val] ∧
      effect (.mula rd rs) rd (s.reg rd) (s.reg rs) 3)

/-- R88, R102, R107, R112: the three divisions are signed and truncate toward zero; V is set for −2^23 / −1 alone; a zero
divisor faults with no effect. -/
def Obligations.DivisionsWriteQuotient : Prop :=
  ∀ s : State,
    let effect := fun (i : Instr) (rd : RegIdx) (a b : Word) (width : Nat) =>
      (b.toNat = 0 → FaultsWith i s .divisionByZero 0) ∧
      (b.toNat ≠ 0 →
        AluEffect i s rd (BitVec.ofInt 24 (a.toInt.tdiv b.toInt)) False (OutOfSigned (a.toInt.tdiv b.toInt)) width ∧
        (OutOfSigned (a.toInt.tdiv b.toInt) ↔ a.toInt = -8388608 ∧ b.toInt = -1))
    (∀ rd ra rb, codeBytes (.div rd ra rb) = [0x13, rd.val, ra.val, rb.val] ∧
      effect (.div rd ra rb) rd (s.reg ra) (s.reg rb) 4) ∧
    (∀ rd ra imm, codeBytes (.divi rd ra imm) = [0x1B, rd.val, ra.val] ++ immNats imm ∧
      effect (.divi rd ra imm) rd (s.reg ra) imm 6) ∧
    (∀ rd rs, codeBytes (.diva rd rs) = [0x23, rd.val, rs.val] ∧
      effect (.diva rd rs) rd (s.reg rd) (s.reg rs) 3)

/-- R89, R103, R108, R113: the three remainders have the dividend's sign or are 0, are smaller than the divisor in size,
fit a word, and clear C and V; a zero divisor faults with no effect. -/
def Obligations.ModuloWritesRemainder : Prop :=
  ∀ s : State,
    let effect := fun (i : Instr) (rd : RegIdx) (a b : Word) (width : Nat) =>
      (b.toNat = 0 → FaultsWith i s .divisionByZero 0) ∧
      (b.toNat ≠ 0 → ∃ m : Int, m = a.toInt - a.toInt.tdiv b.toInt * b.toInt ∧
        AluEffect i s rd (BitVec.ofInt 24 m) False False width ∧
        (m = 0 ∨ (0 < m ↔ 0 < a.toInt)) ∧ m.natAbs < b.toInt.natAbs ∧ ¬OutOfSigned m)
    (∀ rd ra rb, codeBytes (.mod rd ra rb) = [0x14, rd.val, ra.val, rb.val] ∧
      effect (.mod rd ra rb) rd (s.reg ra) (s.reg rb) 4) ∧
    (∀ rd ra imm, codeBytes (.modi rd ra imm) = [0x1C, rd.val, ra.val] ++ immNats imm ∧
      effect (.modi rd ra imm) rd (s.reg ra) imm 6) ∧
    (∀ rd rs, codeBytes (.moda rd rs) = [0x24, rd.val, rs.val] ∧
      effect (.moda rd rs) rd (s.reg rd) (s.reg rs) 3)

/-- 40_engine.md §2: quotient and remainder written to different registers recompose the dividend, but for −2^23 and −1. -/
def Obligations.QuotientAndRemainderRecompose : Prop :=
  ∀ (s : State) (rd ra rb : RegIdx), (s.reg rb).toNat ≠ 0 →
    ¬((s.reg ra).toInt = -8388608 ∧ (s.reg rb).toInt = -1) →
    ∃ t u, exec (.div rd ra rb) s = .next t ∧ exec (.mod rd ra rb) s = .next u ∧
      (s.reg ra).toInt = (t.reg rd).toInt * (s.reg rb).toInt + (u.reg rd).toInt

/-- R114: CMP writes the flags of the subtraction and no register. -/
def Obligations.CmpWritesFlagsOnly : Prop :=
  ∀ (s : State) (ra rb : RegIdx),
    codeBytes (.cmp ra rb) = [0x28, ra.val, rb.val] ∧
    ∃ t, exec (.cmp ra rb) s = .next t ∧
      FlagsAre t.flags (BitVec.ofInt 24 (((s.reg ra).toNat : Int) - (s.reg rb).toNat))
        ((s.reg ra).toNat < (s.reg rb).toNat) (OutOfSigned ((s.reg ra).toInt - (s.reg rb).toInt)) ∧
      SameRegs s t ∧ Advanced s t 3 ∧ SameMem s t ∧ SameStack s t ∧ SameRest s t

/-! ## Bitwise and shifts -/

/-- R90, R91, R115 to R118: the logic instructions, bit by bit; C and V are cleared. -/
def Obligations.LogicWritesBits : Prop :=
  ∀ s : State,
    (∀ rd ra rb, codeBytes (.and rd ra rb) = [0x30, rd.val, ra.val, rb.val] ∧
      ∃ r, AluEffect (.and rd ra rb) s rd r False False 4 ∧
        ∀ k, k < 24 → r.getLsbD k = ((s.reg ra).getLsbD k && (s.reg rb).getLsbD k)) ∧
    (∀ rd ra rb, codeBytes (.or rd ra rb) = [0x31, rd.val, ra.val, rb.val] ∧
      ∃ r, AluEffect (.or rd ra rb) s rd r False False 4 ∧
        ∀ k, k < 24 → r.getLsbD k = ((s.reg ra).getLsbD k || (s.reg rb).getLsbD k)) ∧
    (∀ rd ra rb, codeBytes (.xor rd ra rb) = [0x32, rd.val, ra.val, rb.val] ∧
      ∃ r, AluEffect (.xor rd ra rb) s rd r False False 4 ∧
        ∀ k, k < 24 → r.getLsbD k = ((s.reg ra).getLsbD k ^^ (s.reg rb).getLsbD k)) ∧
    (∀ rd rs, codeBytes (.not rd rs) = [0x33, rd.val, rs.val] ∧
      ∃ r, AluEffect (.not rd rs) s rd r False False 3 ∧
        (∀ k, k < 24 → r.getLsbD k = !(s.reg rs).getLsbD k) ∧ r.toNat = 2 ^ 24 - 1 - (s.reg rs).toNat)

/-- R92, R93, R119, R120: the shifts read their count unsigned, give 0 from a count of 24 on, shift zeros in, and clear C
and V. -/
def Obligations.ShiftsWriteShifted : Prop :=
  ∀ s : State,
    (∀ rd ra rb, codeBytes (.shl rd ra rb) = [0x34, rd.val, ra.val, rb.val] ∧
      AluEffect (.shl rd ra rb) s rd
        (if (s.reg rb).toNat < 24 then BitVec.ofNat 24 ((s.reg ra).toNat * 2 ^ (s.reg rb).toNat) else 0) False False 4) ∧
    (∀ rd ra rb, codeBytes (.shr rd ra rb) = [0x35, rd.val, ra.val, rb.val] ∧
      AluEffect (.shr rd ra rb) s rd
        (if (s.reg rb).toNat < 24 then BitVec.ofNat 24 ((s.reg ra).toNat / 2 ^ (s.reg rb).toNat) else 0) False False 4)

/-! ## Stack -/

/-- R121: PUSH writes the word at sp − 3 and moves sp there; on a full stack it faults with no effect. -/
def Obligations.PushStoresWord : Prop :=
  ∀ (s : State) (rs : RegIdx),
    codeBytes (.push rs) = [0x40, rs.val] ∧
    (s.sp.toNat < s.stackLimit.toNat + 3 → FaultsWith (.push rs) s .stackOverflow 0) ∧
    (s.mem.wf = true → s.stackLimit.toNat + 3 ≤ s.sp.toNat → s.sp.toNat ≤ 65536 →
      StoreEffect (.push rs) s (s.sp.toNat - 3) (s.reg rs) (s.sp.toNat - 3) s.depth (s.pc + 2))

/-- R122: POP reads the word at sp and moves sp up by 3, leaving memory as it is; on an empty stack it faults with no
effect; a PUSH followed by a POP restores sp, puts the pushed word in the destination and leaves every other register and
the flags alone. -/
def Obligations.PopLoadsWord : Prop :=
  ∀ (s : State) (rd : RegIdx),
    codeBytes (.pop rd) = [0x41, rd.val] ∧
    (65536 < s.sp.toNat + 3 → FaultsWith (.pop rd) s .stackUnderflow 0) ∧
    (s.sp.toNat + 3 ≤ 65536 → LoadEffect (.pop rd) s rd (wordAt s s.sp.toNat) (s.sp.toNat + 3) 2) ∧
    (∀ rs, s.mem.wf = true → s.stackLimit.toNat + 3 ≤ s.sp.toNat → s.sp.toNat ≤ 65536 →
      ∃ t u, exec (.push rs) s = .next t ∧ exec (.pop rd) t = .next u ∧ OnlyReg s u rd (s.reg rs) ∧ u.sp = s.sp ∧
        u.flags = s.flags ∧ u.depth = s.depth)

/-- R123: PEEK reads the word at sp and leaves sp; on an empty stack it faults with no effect. -/
def Obligations.PeekCopiesTop : Prop :=
  ∀ (s : State) (rd : RegIdx),
    codeBytes (.peek rd) = [0x42, rd.val] ∧
    (65536 < s.sp.toNat + 3 → FaultsWith (.peek rd) s .stackUnderflow 0) ∧
    (s.sp.toNat + 3 ≤ 65536 → LoadEffect (.peek rd) s rd (wordAt s s.sp.toNat) s.sp.toNat 2)

/-! ## Memory access -/

/-- R124: LOAD reads the word at u(x[ra]); beyond memory it faults with the address, and writes nothing. -/
def Obligations.LoadReadsWord : Prop :=
  ∀ (s : State) (rd ra : RegIdx),
    codeBytes (.load rd ra) = [0x48, rd.val, ra.val] ∧
    (65533 < (s.reg ra).toNat → FaultsWith (.load rd ra) s .outOfBounds (s.reg ra).toNat) ∧
    ((s.reg ra).toNat ≤ 65533 → LoadEffect (.load rd ra) s rd (wordAt s (s.reg ra).toNat) s.sp.toNat 3)

/-- R125: STORE writes x[rs] at u(x[ra]), little-endian; beyond memory it faults with the address, and writes nothing. -/
def Obligations.StoreWritesWord : Prop :=
  ∀ (s : State) (rs ra : RegIdx),
    codeBytes (.store rs ra) = [0x49, rs.val, ra.val] ∧
    (65533 < (s.reg ra).toNat → FaultsWith (.store rs ra) s .outOfBounds (s.reg ra).toNat) ∧
    (s.mem.wf = true → (s.reg ra).toNat ≤ 65533 →
      StoreEffect (.store rs ra) s (s.reg ra).toNat (s.reg rs) s.sp.toNat s.depth (s.pc + 3))

/-- R126: ALOAD reads the word at base + 3 · u(x[ri]), never wrapping; beyond memory it faults with the address capped at
2^24 − 1. -/
def Obligations.AloadReadsElement : Prop :=
  ∀ (s : State) (rd : RegIdx) (base : Addr) (ri : RegIdx),
    codeBytes (.aload rd base ri) = [0x4A, rd.val] ++ addrNats base ++ [ri.val] ∧
    (65536 < base.toNat + 3 * (s.reg ri).toNat + 3 →
      FaultsWith (.aload rd base ri) s .outOfBounds (base.toNat + 3 * (s.reg ri).toNat)) ∧
    (base.toNat + 3 * (s.reg ri).toNat + 3 ≤ 65536 →
      LoadEffect (.aload rd base ri) s rd (wordAt s (base.toNat + 3 * (s.reg ri).toNat)) s.sp.toNat 5)

/-- R127: ASTORE writes x[rs] at base + 3 · u(x[ri]); beyond memory it faults with the address capped, and writes
nothing. -/
def Obligations.AstoreWritesElement : Prop :=
  ∀ (s : State) (base : Addr) (ri rs : RegIdx),
    codeBytes (.astore base ri rs) = [0x4B] ++ addrNats base ++ [ri.val, rs.val] ∧
    (65536 < base.toNat + 3 * (s.reg ri).toNat + 3 →
      FaultsWith (.astore base ri rs) s .outOfBounds (base.toNat + 3 * (s.reg ri).toNat)) ∧
    (s.mem.wf = true → base.toNat + 3 * (s.reg ri).toNat + 3 ≤ 65536 →
      StoreEffect (.astore base ri rs) s (base.toNat + 3 * (s.reg ri).toNat) (s.reg rs) s.sp.toNat s.depth (s.pc + 5))

/-- R45: the word written is the word read back, byte by byte little-endian, and no other byte changes; a canonical
memory stays canonical. -/
def Obligations.WordWriteThenRead : Prop :=
  ∀ (s : State) (a : Nat) (v : Word), s.mem.wf = true → a + 3 ≤ 65536 →
    (s.writeWord a v).readWord a = v ∧ wordAt (s.writeWord a v) a = v ∧ HoldsWord (s.writeWord a v) a v ∧
      SameMemOutsideWord s (s.writeWord a v) a ∧ (s.writeWord a v).mem.wf = true

/-- 20_memory.md §7: a store into code is seen by the very next fetch: a STORE whose low byte is HALT's opcode, over the
bytes of the next instruction, makes the next step halt. -/
def Obligations.StoreIntoCodeIsFetched : Prop :=
  ∀ (s : State) (rs ra : RegIdx), s.mem.wf = true → s.state = .running → (s.reg ra).toNat ≤ 65533 →
    s.reg ra = s.pc + 3 → (s.reg rs).toNat % 256 = 1 →
    ∃ t, exec (.store rs ra) s = .next t ∧ step t = .next { t with state := .halted, status := some 0 }

/-- 20_memory.md §1 (the model's canonical form, log entry 9): two canonical memories that read the same at every address
are the same. -/
def Obligations.CanonicalMemoryIsUnique : Prop :=
  ∀ m m' : Memory, m.wf = true → m'.wf = true → (∀ a, m.read a = m'.read a) → m = m'

/-! ## Control transfer -/

/-- R128: JMP sets pc to its target and changes nothing else. -/
def Obligations.JmpSetsPc : Prop :=
  ∀ (s : State) (target : Addr),
    codeBytes (.jmp target) = [0x50] ++ addrNats target ∧ JumpEffect (.jmp target) s (BitVec.ofNat 24 target.toNat)

/-- R129 to R134: each conditional jump goes to its target if its flags condition holds, else on to the next instruction,
and changes pc alone. -/
def Obligations.ConditionalJumpsTestFlags : Prop :=
  ∀ (s : State) (target : Addr),
    let jumps := fun (i : Instr) (op : Nat) (taken : Prop) =>
      codeBytes i = [op] ++ addrNats target ∧
      (taken → JumpEffect i s (BitVec.ofNat 24 target.toNat)) ∧ (¬taken → JumpEffect i s (s.pc + 3))
    jumps (.jeq target) 0x51 (s.flags.z = true) ∧
    jumps (.jne target) 0x52 (s.flags.z = false) ∧
    jumps (.jgt target) 0x53 (s.flags.z = false ∧ s.flags.n = s.flags.v) ∧
    jumps (.jlt target) 0x54 (s.flags.n ≠ s.flags.v) ∧
    jumps (.jgtu target) 0x55 (s.flags.c = false ∧ s.flags.z = false) ∧
    jumps (.jltu target) 0x56 (s.flags.c = true)

/-- 40_engine.md §3: after a CMP the six conditional jumps decide equality and the signed and unsigned orders of the two
registers. -/
def Obligations.CmpThenJumpDecidesOrder : Prop :=
  ∀ (s : State) (ra rb : RegIdx), ∃ t, exec (.cmp ra rb) s = .next t ∧
    ∀ target : Addr,
      let jumps := fun (i : Instr) (taken : Prop) =>
        (taken → JumpEffect i t (BitVec.ofNat 24 target.toNat)) ∧ (¬taken → JumpEffect i t (t.pc + 3))
      jumps (.jeq target) (s.reg ra = s.reg rb) ∧
      jumps (.jne target) (s.reg ra ≠ s.reg rb) ∧
      jumps (.jgt target) ((s.reg rb).toInt < (s.reg ra).toInt) ∧
      jumps (.jlt target) ((s.reg ra).toInt < (s.reg rb).toInt) ∧
      jumps (.jgtu target) ((s.reg rb).toNat < (s.reg ra).toNat) ∧
      jumps (.jltu target) ((s.reg ra).toNat < (s.reg rb).toNat)

/-- R135: CALL checks the depth, then the stack, then pushes the return address, counts the depth and jumps. -/
def Obligations.CallPushesReturnAddress : Prop :=
  ∀ (s : State) (target : Addr),
    codeBytes (.call target) = [0x58] ++ addrNats target ∧
    (Config.maxStackDepth < s.depth + 1 → FaultsWith (.call target) s .recursionLimit 0) ∧
    (s.depth + 1 ≤ Config.maxStackDepth → s.sp.toNat < s.stackLimit.toNat + 3 →
      FaultsWith (.call target) s .stackOverflow 0) ∧
    (s.mem.wf = true → s.depth + 1 ≤ Config.maxStackDepth → s.stackLimit.toNat + 3 ≤ s.sp.toNat →
      s.sp.toNat ≤ 65536 →
      StoreEffect (.call target) s (s.sp.toNat - 3) (BitVec.ofNat 24 (s.pc.toNat + 3)) (s.sp.toNat - 3) (s.depth + 1)
        (BitVec.ofNat 24 target.toNat))

/-- R136: RET checks the depth, then the stack, then takes the full word on top as the pc. -/
def Obligations.RetPopsPc : Prop :=
  ∀ s : State,
    codeBytes .ret = [0x59] ∧
    (s.depth = 0 → FaultsWith .ret s .stackUnderflow 0) ∧
    (65536 < s.sp.toNat + 3 → FaultsWith .ret s .stackUnderflow 0) ∧
    (0 < s.depth → s.sp.toNat + 3 ≤ 65536 →
      ∃ t, exec .ret s = .next t ∧ t.pc = wordAt s s.sp.toNat ∧ t.sp.toNat = s.sp.toNat + 3 ∧
        t.depth = s.depth - 1 ∧ SameRegs s t ∧ t.flags = s.flags ∧ SameMem s t ∧ SameRest s t)

/-- 46_control.md §2: a RET right after a CALL comes back to the instruction after the CALL, with sp and depth as before
it. -/
def Obligations.CallThenRetComesBack : Prop :=
  ∀ (s : State) (target : Addr), s.mem.wf = true → s.depth + 1 ≤ Config.maxStackDepth →
    s.stackLimit.toNat + 3 ≤ s.sp.toNat → s.sp.toNat ≤ 65536 → s.pc.toNat + 3 ≤ 65536 →
    ∃ t u, exec (.call target) s = .next t ∧ exec .ret t = .next u ∧ u.pc.toNat = s.pc.toNat + 3 ∧ u.sp = s.sp ∧
      u.depth = s.depth ∧ SameRegs s u ∧ u.flags = s.flags

/-! ## System -/

/-- R138: SYSCALL id 0 appends the signed value of x[r] to the output trace and changes nothing else. -/
def Obligations.PrintIntegerEmits : Prop :=
  ∀ (s : State) (id : Word) (r : RegIdx) (off : Addr), id.toNat = 0 →
    exec (.syscall id r off) s = .next { s with out := s.out ++ [.outInt (s.reg r).toInt], pc := s.pc + 7 }

/-- R139: SYSCALL id 1 takes the answer of the host: an integer goes into x[r] modulo 2^24, "no input" faults with no
effect, and with no answer there is no next state. -/
def Obligations.ReadIntegerTakesAnswer : Prop :=
  ∀ (s : State) (id : Word) (r : RegIdx) (off : Addr), id.toNat = 1 →
    (∀ n : Int, s.hostAnswer = .int n → ∃ t, exec (.syscall id r off) s = .next t ∧
      OnlyReg s t r (BitVec.ofInt 24 n) ∧ t.flags = s.flags ∧ Advanced s t 7 ∧ SameMem s t ∧ SameStack s t ∧
      SameLatches s t ∧ SameRun s t ∧ t.out = s.out) ∧
    (s.hostAnswer = .noInput → FaultsWith (.syscall id r off) s .inputUnavailable 0) ∧
    (s.hostAnswer = .never → ∀ t, exec (.syscall id r off) s ≠ .next t)

/-- 47_system.md §1 (the model's host answers, log entry 4): the answers lined up are given one by one, in their order;
when none is lined up the answer is the free one of the counter, whatever it is, and the counter moves on; an answer that
never comes stops the step by name (log entry 5). -/
def Obligations.HostAnswersAreTakenInOrder : Prop :=
  ∀ (s : State) (id : Word) (r : RegIdx) (off : Addr), id.toNat = 1 →
    (∀ n rest, s.hostInput = .int n :: rest → ∃ t, exec (.syscall id r off) s = .next t ∧
      t.reg r = BitVec.ofInt 24 n ∧ t.hostInput = rest ∧ t.hostReads = s.hostReads) ∧
    (s.hostAnswer = .never → exec (.syscall id r off) s = .fault .hostNeverAnswers) ∧
    (s.hostInput = [] →
      match Config.hostAnswer s.hostReads with
      | .int n => ∃ t, exec (.syscall id r off) s = .next t ∧ t.reg r = BitVec.ofInt 24 n ∧ t.hostInput = [] ∧
          t.hostReads = s.hostReads + 1
      | .noInput => FaultsWith (.syscall id r off) s .inputUnavailable 0
      | .never => s.hostAnswer = .never)

/-- R140: SYSCALL id 2 prints the length-prefixed string at data_base + off; both bounds are checked before anything is
emitted. -/
def Obligations.PrintStringEmits : Prop :=
  ∀ (s : State) (id : Word) (r : RegIdx) (off : Addr), id.toNat = 2 →
    let a := s.dataBase.toNat + off.toNat
    let len := (s.mem.read a).toNat + 256 * (s.mem.read (a + 1)).toNat
    (65536 < a + 2 → FaultsWith (.syscall id r off) s .outOfBounds a) ∧
    (a + 2 ≤ 65536 → 65536 < a + 2 + len → FaultsWith (.syscall id r off) s .outOfBounds (a + 2)) ∧
    (a + 2 + len ≤ 65536 → ∃ bytes : List Byte, bytes.length = len ∧
      (∀ k (h : k < bytes.length), bytes[k] = s.mem.read (a + 2 + k)) ∧
      exec (.syscall id r off) s = .next { s with out := s.out ++ [.outStr bytes], pc := s.pc + 7 })

/-- R141: SYSCALL id 3 ends the run in Halted with x[r] as the status, whatever the value; pc stays. -/
def Obligations.ExitHaltsWithStatus : Prop :=
  ∀ (s : State) (id : Word) (r : RegIdx) (off : Addr), id.toNat = 3 →
    exec (.syscall id r off) s = .next { s with state := .halted, status := some (s.reg r) }

/-- R142: every other id faults, all 24 bits of it counting. -/
def Obligations.UnknownSyscallFaults : Prop :=
  ∀ (s : State) (id : Word) (r : RegIdx) (off : Addr), 4 ≤ id.toNat →
    FaultsWith (.syscall id r off) s .unknownId 0

/-- R70 and 47_system.md §1: SYSCALL's bytes, and the operands that an id does not use: the address for every id but 2,
the register for id 2. -/
def Obligations.SyscallIgnoresUnusedOperands : Prop :=
  ∀ (s : State) (id : Word) (r r' : RegIdx) (off off' : Addr),
    codeBytes (.syscall id r off) = [0x60] ++ immNats id ++ [r.val] ++ addrNats off ∧
    (id.toNat ≠ 2 → exec (.syscall id r off) s = exec (.syscall id r off') s) ∧
    (id.toNat = 2 → exec (.syscall id r off) s = exec (.syscall id r' off) s)

/-- R143: HALT ends the run in Halted with status 0; pc stays, whatever the stack and the depth. -/
def Obligations.HaltEndsRun : Prop :=
  codeBytes .halt = [0x01] ∧
  ∀ s : State, exec .halt s = .next { s with state := .halted, status := some 0 }

/-! ## Whole-machine rules -/

/-- 60_exceptions.md §1: a step that ends in Faulted has changed nothing but the run state and the record, which names the
pc of the step and address 0 unless it is a memory error. -/
def Obligations.FaultEntryIsPrecise : Prop :=
  ∀ s t : State, step s = .next t → t.state = .faulted →
    ∃ k addr, t = { s with state := .faulted, fault := some ⟨k, s.pc, addr⟩ } ∧ (k ≠ .outOfBounds → addr = 0)

/-- 60_exceptions.md §1: the codes of the nine faults. -/
def Obligations.FaultCodes : Prop :=
  ErrorKind.outOfBounds.code = 1 ∧ ErrorKind.stackOverflow.code = 2 ∧ ErrorKind.stackUnderflow.code = 3 ∧
  ErrorKind.recursionLimit.code = 4 ∧ ErrorKind.divisionByZero.code = 5 ∧ ErrorKind.invalidOpcode.code = 6 ∧
  ErrorKind.malformedOperand.code = 7 ∧ ErrorKind.unknownId.code = 8 ∧ ErrorKind.inputUnavailable.code = 9

/-- 10_state.md §4: every step keeps the invariant. -/
def Obligations.StepKeepsInvariant : Prop :=
  ∀ s t : State, Inv s → step s = .next t → Inv t

/-- 10_state.md §7: the reset state meets the invariant. -/
def Obligations.ResetMeetsInvariant : Prop := Inv State.reset

/-- 70_reset_and_hazards.md §2: every state an accepted image makes meets the invariant. -/
def Obligations.LoadedImageMeetsInvariant : Prop :=
  ∀ image s, loadImage image = some s → Inv s

/-- 10_state.md §4: the two latches set at load never change. -/
def Obligations.StepKeepsLatches : Prop :=
  ∀ s t : State, step s = .next t → t.stackLimit = s.stackLimit ∧ t.dataBase = s.dataBase

/-- R19: an instruction outside the list leaves all four flags; one of the list writes all four, whatever they were; a
faulting instruction leaves them. -/
def Obligations.OnlyAluWritesFlags : Prop :=
  ∀ (i : Instr) (s t : State), exec i s = .next t →
    (writesFlags i = false → t.flags = s.flags) ∧
    (s.state = .running → t.state = .faulted → t.flags = s.flags) ∧
    (writesFlags i = true → s.state = .running → t.state ≠ .faulted →
      ∀ f, ∃ u, exec i { s with flags := f } = .next u ∧ u.flags = t.flags)

/-- 10_state.md §3: no instruction but the six conditional jumps reads the flags: with other flags it does the same to
everything else. -/
def Obligations.OnlyConditionalJumpsReadFlags : Prop :=
  ∀ (i : Instr) (s : State) (f : Flags), readsFlags i = false →
    (∀ t, exec i s = .next t → ∃ u, exec i { s with flags := f } = .next u ∧ { u with flags := t.flags } = t) ∧
    (∀ e, exec i s = .fault e → exec i { s with flags := f } = .fault e)

/-- 10_state.md §5: an instruction changes no general register but its destinations. -/
def Obligations.OnlyDestinationsChange : Prop :=
  ∀ (i : Instr) (s t : State), exec i s = .next t → ∀ j, j ∉ destinations i → t.reg j = s.reg j

/-- 20_memory.md §4: an instruction changes no byte of memory but the three of the word it stores, at the address its
operands give; one that stores nothing changes none. -/
def Obligations.OnlyTheStoredWordChanges : Prop :=
  ∀ (i : Instr) (s t : State), exec i s = .next t →
    (storeAddr i s = none → SameMem s t) ∧ (∀ a, storeAddr i s = some a → SameMemOutsideWord s t a)

/-- 10_state.md §4: sp is moved by PUSH, CALL, POP and RET only, the depth by CALL and RET only, each by its own step. -/
def Obligations.OnlyStackInstructionsMoveSp : Prop :=
  ∀ (i : Instr) (s t : State), exec i s = .next t →
    (movesSp i = false → t.sp = s.sp ∧ t.depth = s.depth) ∧
    (∀ r, i = .push r → t.depth = s.depth ∧ (t.sp = s.sp ∨ t.sp.toNat + 3 = s.sp.toNat)) ∧
    (∀ r, i = .pop r → t.depth = s.depth ∧ (t.sp = s.sp ∨ t.sp.toNat = s.sp.toNat + 3)) ∧
    (∀ a, i = .call a → (t.sp = s.sp ∧ t.depth = s.depth) ∨ (t.sp.toNat + 3 = s.sp.toNat ∧ t.depth = s.depth + 1)) ∧
    (i = .ret → (t.sp = s.sp ∧ t.depth = s.depth) ∨ (t.sp.toNat = s.sp.toNat + 3 ∧ t.depth + 1 = s.depth))

/-- 10_state.md §4: the output trace only grows, by at most one event, and only SYSCALL ids 0 and 2 make it grow; only
SYSCALL id 1 takes an answer of the host. -/
def Obligations.OnlySyscallReachesHost : Prop :=
  ∀ (i : Instr) (s t : State), exec i s = .next t →
    (t.out = s.out ∨ ∃ id r off e, i = .syscall id r off ∧ (id.toNat = 0 ∨ id.toNat = 2) ∧ t.out = s.out ++ [e]) ∧
    ((t.hostInput = s.hostInput ∧ t.hostReads = s.hostReads) ∨ ∃ id r off, i = .syscall id r off ∧ id.toNat = 1)

/-! ## Reset and loading -/

/-- 10_state.md §7: the reset state. The registers, flags, sp, depth, memory, run state, record, status and trace are the
spec's; pc, the two latches and the two fields of the host's answers are the model's choice before any image is loaded
(log entries 1 and 4). -/
def Obligations.ResetValues : Prop :=
  (∀ r, State.reset.reg r = 0) ∧ State.reset.flags = ⟨false, false, false, false⟩ ∧
  State.reset.sp.toNat = 0x10000 ∧ State.reset.depth = 0 ∧ (∀ a, State.reset.mem.read a = 0) ∧
  State.reset.state = .running ∧ State.reset.fault = none ∧ State.reset.status = none ∧ State.reset.out = [] ∧
  State.reset.pc = 0 ∧ State.reset.stackLimit = 0 ∧ State.reset.dataBase = 0 ∧ State.reset.hostInput = [] ∧
  State.reset.hostReads = 0

/-- R40 and R161: the state that loading an accepted image makes. -/
def Obligations.LoadedStateIsAsStated : Prop :=
  ∀ (magic : List Byte) (entry : Nat) (code data : List Byte), magic.length = 4 → entry < code.length →
    code.length < 65536 → data.length < 65536 → code.length + data.length ≤ 65536 →
    ∃ s, loadImageWith magic (buildImage magic entry code data) = some s ∧
      (∀ r, s.reg r = 0) ∧ s.flags = ⟨false, false, false, false⟩ ∧ s.pc.toNat = entry ∧ s.sp.toNat = 0x10000 ∧
      s.depth = 0 ∧ s.dataBase.toNat = code.length ∧ s.stackLimit.toNat = code.length + data.length ∧
      (∀ k (h : k < code.length), s.mem.read k = code[k]) ∧
      (∀ k (h : k < data.length), s.mem.read (code.length + k) = data[k]) ∧
      (∀ a, code.length + data.length ≤ a → s.mem.read a = 0) ∧
      s.state = .running ∧ s.fault = none ∧ s.status = none ∧ s.out = []

/-- R160: the loader accepts exactly the images of a header with the right magic and version, lengths that match, sections
that fit memory and an entry inside the code; it refuses every other byte list. -/
def Obligations.LoaderAcceptsExactlyGoodImages : Prop :=
  ∀ (magic image : List Byte) (s : State), magic.length = 4 →
    (loadImageWith magic image = some s ↔
      ∃ (entry : Nat) (code data : List Byte),
        image = buildImage magic entry code data ∧ entry < code.length ∧ code.length < 65536 ∧ data.length < 65536 ∧
        code.length + data.length ≤ 65536 ∧ s = State.loaded entry code data)
end

