-- ==== Sys2Proof/Laws/Decode.lean ====
section
/-! SUPPORT. The small laws of operand bytes: what the encoder writes for an operand, the decoder reads back, and the
other way round. -/

namespace Sys2Proof

/-- A register byte reads back as its register (R60). -/
@[simp] theorem regOf_regByte (r : RegIdx) : regOf (regByte r) = some r := by
  have h : (regByte r).toNat = r.val := by simp [regByte]; omega
  unfold regOf
  rw [dif_pos (by rw [h]; exact r.isLt)]
  exact congrArg some (Fin.ext h)

/-- Only the byte of a register reads as that register. -/
theorem regByte_of_regOf {b : Byte} {r : RegIdx} (h : regOf b = some r) : regByte r = b := by
  unfold regOf at h
  split at h
  · obtain rfl := Option.some.inj h
    simp [regByte]
  · cases h

/-- A register byte is refused exactly if it is above 15 (R67). -/
theorem regOf_eq_none_iff (b : Byte) : regOf b = none ↔ regByteOk b = false := by
  unfold regOf regByteOk
  split <;> simp <;> omega

/-- The three bytes of an immediate read back as the immediate (R61). -/
@[simp] theorem immOf_immBytes (v : Word) :
    immOf (v.extractLsb' 0 8) (v.extractLsb' 8 8) (v.extractLsb' 16 8) = v := by
  unfold immOf
  apply BitVec.eq_of_toNat_eq
  simp only [BitVec.toNat_append, BitVec.extractLsb'_toNat, Nat.shiftRight_eq_div_pow, Nat.shiftLeft_eq]
  rw [← Nat.shiftLeft_eq, ← Nat.shiftLeft_eq, ← Nat.shiftLeft_add_eq_or_of_lt (by omega),
    ← Nat.shiftLeft_add_eq_or_of_lt (by omega)]
  simp only [Nat.shiftLeft_eq]
  omega

/-- The number an immediate's three bytes spell (R61). -/
theorem toNat_immOf (i0 i1 i2 : Byte) : (immOf i0 i1 i2).toNat = i0.toNat + 256 * i1.toNat + 65536 * i2.toNat := by
  unfold immOf
  simp only [BitVec.toNat_append]
  rw [← Nat.shiftLeft_add_eq_or_of_lt (by omega), ← Nat.shiftLeft_add_eq_or_of_lt (by omega)]
  simp only [Nat.shiftLeft_eq]
  omega

/-- The number an address's two bytes spell (R62). -/
theorem toNat_addrOf (a0 a1 : Byte) : (addrOf a0 a1).toNat = a0.toNat + 256 * a1.toNat := by
  unfold addrOf
  simp only [BitVec.toNat_append]
  rw [← Nat.shiftLeft_add_eq_or_of_lt (by omega)]
  simp only [Nat.shiftLeft_eq]
  omega

/-- The two bytes of an address read back as the address (R62). -/
@[simp] theorem addrOf_addrBytes (a : Addr) : addrOf (a.extractLsb' 0 8) (a.extractLsb' 8 8) = a := by
  apply BitVec.eq_of_toNat_eq
  rw [toNat_addrOf]
  simp only [BitVec.extractLsb'_toNat, Nat.shiftRight_eq_div_pow]
  omega

/-- The bytes of the immediate that three bytes make are those bytes. -/
theorem immBytes_immOf (i0 i1 i2 : Byte) : immBytes (immOf i0 i1 i2) = [i0, i1, i2] := by
  have h := toNat_immOf i0 i1 i2
  simp only [immBytes, List.cons.injEq, and_true]
  refine ⟨?_, ?_, ?_⟩ <;>
    (apply BitVec.eq_of_toNat_eq
     simp only [BitVec.extractLsb'_toNat, Nat.shiftRight_eq_div_pow, h]
     omega)

/-- The bytes of the address that two bytes make are those bytes. -/
theorem addrBytes_addrOf (a0 a1 : Byte) : addrBytes (addrOf a0 a1) = [a0, a1] := by
  have h := toNat_addrOf a0 a1
  simp only [addrBytes, List.cons.injEq, and_true]
  refine ⟨?_, ?_⟩ <;>
    (apply BitVec.eq_of_toNat_eq
     simp only [BitVec.extractLsb'_toNat, Nat.shiftRight_eq_div_pow, h]
     omega)

/-- What an operand list that may be malformed answers. -/
theorem orMalformed_ok {o : Option Instr} {bs rest : List Byte} {i : Instr} (h : orMalformed o bs = .ok (i, rest)) :
    o = some i ∧ bs = rest := by
  unfold orMalformed at h
  cases o <;> simp_all

/-- The decoder of a list with an opcode byte of the map is the parser of its row. -/
theorem decode_cons {op : Byte} {row : Row} (bs : List Byte) (h : opcodeRow op = some row) :
    decode (op :: bs) = row.parse bs := by
  simp [decode, h]

/-- The decoder of a list whose first byte is no opcode (R68). -/
theorem decode_invalid {op : Byte} (bs : List Byte) (h : opcodeRow op = none) :
    decode (op :: bs) = .error .invalidOpcode := by
  simp [decode, h]

end Sys2Proof
end

