-- ==== Sys2Proof/Laws/Memory.lean ====
section
/-! SUPPORT. The laws of memory: reading after writing, the canonical form and what keeps it. -/

namespace Sys2Proof.Machine

/-! ## One byte -/

/-- Writing a byte leaves every other byte alone, whatever the list. -/
theorem read_write_ne (m : Memory) {a k : Nat} (v : Byte) (h : k ≠ a) : (m.write a v).read k = m.read k := by
  induction m with
  | nil => unfold Memory.write; split <;> simp [Memory.read, h]
  | cons p rest ih =>
    obtain ⟨b, w⟩ := p
    unfold Memory.write
    split
    · split <;> simp [Memory.read, h]
    · split
      · rename_i hab; subst hab; split <;> simp [Memory.read, h]
      · simp only [Memory.read, ih]

/-- An address below every listed one reads as unlisted. -/
theorem read_of_lt (m : Memory) (a : Nat) (h : ∀ p ∈ m, a < p.1) : m.read a = Memory.unlisted := by
  induction m with
  | nil => rfl
  | cons p rest ih =>
    have hp := h p (List.mem_cons_self ..)
    simp only [Memory.read, if_neg (Nat.ne_of_lt hp)]
    exact ih fun q hq => h q (List.mem_cons_of_mem _ hq)

/-- In a strictly rising list, the byte written is the byte read. -/
theorem read_write_same (m : Memory) (a : Nat) (v : Byte) (h : m.Pairwise fun p q => p.1 < q.1) :
    (m.write a v).read a = v := by
  induction m with
  | nil => unfold Memory.write; split <;> simp_all [Memory.read]
  | cons p rest ih =>
    obtain ⟨b, w⟩ := p
    obtain ⟨hb, hr⟩ := List.pairwise_cons.mp h
    have above : a ≤ b → ∀ q ∈ rest, a < q.1 := fun hab q hq => Nat.lt_of_le_of_lt hab (hb q hq)
    unfold Memory.write
    split
    · rename_i hab
      split
      · rename_i hv; subst hv
        simp only [Memory.read, if_neg (Nat.ne_of_lt hab)]
        exact read_of_lt rest a (above (Nat.le_of_lt hab))
      · simp [Memory.read]
    · split
      · rename_i hab
        split
        · rename_i hv; subst hv; exact read_of_lt rest a (above (Nat.le_of_eq hab))
        · simp [Memory.read]
      · rename_i hab; simp only [Memory.read, if_neg hab, ih hr]

/-! ## The canonical form -/

/-- What the canonical form says, as propositions. -/
theorem wf_iff (m : Memory) : m.wf = true ↔
    (m.Pairwise fun p q => p.1 < q.1) ∧ ∀ p ∈ m, p.2 ≠ Memory.unlisted ∧ p.1 < Config.memSize := by
  simp [Memory.wf, List.all_eq_true]

theorem wf_nil : Memory.wf [] = true := by simp [wf_iff]

theorem wf_tail {p : Host.Cell} {m : Memory} (h : Memory.wf (p :: m) = true) : Memory.wf m = true := by
  rw [wf_iff] at h ⊢
  exact ⟨(List.pairwise_cons.mp h.1).2, fun q hq => h.2 q (List.mem_cons_of_mem _ hq)⟩

/-- A canonical list with one more cell in front, its address below all others. -/
theorem wf_cons {a : Nat} {v : Byte} {m : Memory} (hm : m.wf = true) (hv : v ≠ Memory.unlisted)
    (ha : a < Config.memSize) (h : ∀ p ∈ m, a < p.1) : Memory.wf ((a, v) :: m) = true := by
  rw [wf_iff] at hm ⊢
  refine ⟨List.pairwise_cons.mpr ⟨h, hm.1⟩, fun q hq => ?_⟩
  rcases List.mem_cons.mp hq with rfl | hq
  · exact ⟨hv, ha⟩
  · exact hm.2 q hq

/-- A cell of the list after a write is the written one or was there before. -/
theorem mem_write {m : Memory} {a : Nat} {v : Byte} {p : Host.Cell} (h : p ∈ m.write a v) : p = (a, v) ∨ p ∈ m := by
  induction m with
  | nil => unfold Memory.write at h; split at h <;> simp_all
  | cons q rest ih =>
    obtain ⟨b, w⟩ := q
    unfold Memory.write at h
    split at h
    · split at h
      · exact Or.inr h
      · exact (List.mem_cons.mp h)
    · split at h
      · split at h
        · exact Or.inr (List.mem_cons_of_mem _ h)
        · exact (List.mem_cons.mp h).imp id (List.mem_cons_of_mem _)
      · rcases List.mem_cons.mp h with rfl | h
        · exact Or.inr (List.mem_cons_self ..)
        · exact (ih h).imp id (List.mem_cons_of_mem _)

/-- Writing a byte inside memory keeps the canonical form. -/
theorem wf_write {m : Memory} {a : Nat} (v : Byte) (hm : m.wf = true) (ha : a < Config.memSize) :
    (m.write a v).wf = true := by
  induction m with
  | nil =>
    unfold Memory.write
    split
    · exact wf_nil
    · rename_i hv; exact wf_cons wf_nil hv ha (by simp)
  | cons q rest ih =>
    obtain ⟨b, w⟩ := q
    have hall := (wf_iff _).mp hm
    have hb := (List.pairwise_cons.mp hall.1).1
    have hr := wf_tail hm
    have hw := hall.2 (b, w) (List.mem_cons_self ..)
    unfold Memory.write
    split
    · rename_i hab
      split
      · exact hm
      · rename_i hv
        refine wf_cons hm hv ha fun p hp => ?_
        rcases List.mem_cons.mp hp with rfl | hp
        · exact hab
        · exact Nat.lt_trans hab (hb p hp)
    · split
      · rename_i hab
        split
        · exact hr
        · rename_i hv; exact wf_cons hr hv ha fun p hp => hab ▸ hb p hp
      · refine wf_cons (ih hr) hw.1 hw.2 fun p hp => ?_
        rcases mem_write hp with rfl | hp
        · show b < a; omega
        · exact hb p hp

/-! ## Several bytes -/

/-- Writing bytes leaves every address outside them alone. -/
theorem read_writeBytes_outside (m : Memory) (a : Nat) (bs : List Byte) {k : Nat} (h : k < a ∨ a + bs.length ≤ k) :
    (m.writeBytes a bs).read k = m.read k := by
  induction bs generalizing m a with
  | nil => rfl
  | cons b bs ih =>
    simp only [List.length_cons] at h
    rw [Memory.writeBytes, ih _ _ (by omega), read_write_ne _ _ (by omega)]

/-- Writing bytes inside memory keeps the canonical form. -/
theorem wf_writeBytes {m : Memory} {a : Nat} (bs : List Byte) (hm : m.wf = true)
    (h : a + bs.length ≤ Config.memSize) : (m.writeBytes a bs).wf = true := by
  induction bs generalizing m a with
  | nil => exact hm
  | cons b bs ih =>
    simp only [List.length_cons] at h
    exact ih (wf_write b hm (by omega)) (by omega)

/-- The bytes written are the bytes read. -/
theorem read_writeBytes_inside {m : Memory} {a : Nat} (bs : List Byte) (hm : m.wf = true)
    (h : a + bs.length ≤ Config.memSize) {i : Nat} (hi : i < bs.length) :
    (m.writeBytes a bs).read (a + i) = bs[i] := by
  induction bs generalizing m a i with
  | nil => exact absurd hi (Nat.not_lt_zero i)
  | cons b bs ih =>
    simp only [List.length_cons] at h hi
    rw [Memory.writeBytes]
    have hw := wf_write b hm (show a < Config.memSize by omega)
    cases i with
    | zero =>
      rw [read_writeBytes_outside _ _ _ (by omega), Nat.add_zero, read_write_same _ _ _ ((wf_iff _).mp hm).1]
      rfl
    | succ j =>
      have := ih (a := a + 1) hw (by omega) (show j < bs.length by omega)
      rw [show a + (j + 1) = a + 1 + j by omega, this]
      rfl

@[simp] theorem length_readBytes (m : Memory) (a n : Nat) : (m.readBytes a n).length = n := by
  induction n generalizing a with
  | zero => rfl
  | succ n ih => simp [Memory.readBytes, ih]

theorem getElem_readBytes (m : Memory) (a n i : Nat) (h : i < (m.readBytes a n).length) :
    (m.readBytes a n)[i] = m.read (a + i) := by
  induction n generalizing a i with
  | zero => simp [Memory.readBytes] at h
  | succ n ih =>
    cases i with
    | zero => rfl
    | succ i =>
      simp only [Memory.readBytes, List.getElem_cons_succ]
      rw [ih (a + 1) i (by simpa [Memory.readBytes] using h), show a + 1 + i = a + (i + 1) by omega]

/-- Reading a stretch of memory in two parts. -/
theorem readBytes_add (m : Memory) (a n k : Nat) :
    m.readBytes a (n + k) = m.readBytes a n ++ m.readBytes (a + n) k := by
  induction n generalizing a with
  | zero => simp [Memory.readBytes]
  | succ n ih =>
    rw [show n + 1 + k = n + k + 1 by omega, Memory.readBytes, Memory.readBytes, ih,
      show a + 1 + n = a + (n + 1) by omega, List.cons_append]

/-- Two memories that agree on a stretch read the same bytes there. -/
theorem readBytes_congr {m m' : Memory} {a n : Nat} (h : ∀ i, i < n → m'.read (a + i) = m.read (a + i)) :
    m'.readBytes a n = m.readBytes a n := by
  refine List.ext_getElem (by simp) fun i h1 h2 => ?_
  rw [getElem_readBytes, getElem_readBytes]
  exact h i (by simpa using h1)

/-! ## Words -/

theorem length_wordBytes (v : Word) : (wordBytes v).length = 3 := rfl

/-- The bytes of a word spell the word (R45). -/
theorem leNat_wordBytes (v : Word) : leNat (wordBytes v) = v.toNat := by
  simp only [wordBytes, leNat, BitVec.extractLsb'_toNat]
  simp only [Nat.shiftRight_eq_div_pow]
  omega

/-- The word read is the word written (R45). -/
theorem readWord_writeWord (s : State) {a : Nat} (v : Word) (hm : s.mem.wf = true) (h : a + 3 ≤ Config.memSize) :
    (s.writeWord a v).readWord a = v := by
  have hb : (s.mem.writeBytes a (wordBytes v)).readBytes a Config.wordBytes = wordBytes v := by
    refine List.ext_getElem (by simp [length_wordBytes, Config.wordBytes]) fun i h1 h2 => ?_
    rw [getElem_readBytes]
    exact read_writeBytes_inside _ hm (by rw [length_wordBytes]; exact h) h2
  show BitVec.ofNat 24 (leNat ((s.mem.writeBytes a (wordBytes v)).readBytes a Config.wordBytes)) = v
  rw [hb, leNat_wordBytes]
  simp

/-- A word write leaves every byte outside its three alone. -/
theorem read_writeWord_outside (s : State) {a k : Nat} (v : Word) (h : k < a ∨ a + 3 ≤ k) :
    (s.writeWord a v).mem.read k = s.mem.read k :=
  read_writeBytes_outside _ _ _ h

/-- A word write inside memory keeps the canonical form. -/
theorem wf_writeWord {s : State} {a : Nat} (v : Word) (hm : s.mem.wf = true) (h : inBounds a Config.wordBytes = true) :
    (s.writeWord a v).mem.wf = true :=
  wf_writeBytes _ hm (of_decide_eq_true h)

/-! ## Memory from an image -/

/-- The listed addresses of an image's memory start at its own. -/
theorem le_of_mem_ofBytes {a : Nat} {bs : List Byte} {p : Host.Cell} (h : p ∈ Memory.ofBytes a bs) : a ≤ p.1 := by
  induction bs generalizing a with
  | nil => simp [Memory.ofBytes] at h
  | cons b bs ih =>
    unfold Memory.ofBytes at h
    split at h
    · exact Nat.le_of_succ_le (ih h)
    · rcases List.mem_cons.mp h with rfl | h
      · exact Nat.le_refl _
      · exact Nat.le_of_succ_le (ih h)

/-- An image that fits makes a canonical memory. -/
theorem wf_ofBytes {a : Nat} {bs : List Byte} (h : a + bs.length ≤ Config.memSize) : (Memory.ofBytes a bs).wf = true := by
  induction bs generalizing a with
  | nil => exact wf_nil
  | cons b bs ih =>
    simp only [List.length_cons] at h
    unfold Memory.ofBytes
    have hr := ih (a := a + 1) (by omega)
    split
    · exact hr
    · rename_i hb; exact wf_cons hr hb (by omega) fun p hp => le_of_mem_ofBytes hp

/-- The image's bytes lie where it puts them, every other byte is unlisted (R40). -/
theorem read_ofBytes (a : Nat) (bs : List Byte) (k : Nat) : (Memory.ofBytes a bs).read k =
    if h : a ≤ k ∧ k - a < bs.length then bs[k - a]'h.2 else Memory.unlisted := by
  induction bs generalizing a with
  | nil => simp [Memory.ofBytes, Memory.read]
  | cons b bs ih =>
    unfold Memory.ofBytes
    by_cases hka : k = a
    · subst hka
      have hlt : (Memory.ofBytes (k + 1) bs).read k = Memory.unlisted :=
        read_of_lt _ _ fun p hp => le_of_mem_ofBytes hp
      split
      · rename_i hb; simp [hlt, hb]
      · simp [Memory.read]
    · have step : (if b = Memory.unlisted then Memory.ofBytes (a + 1) bs else (a, b) :: Memory.ofBytes (a + 1) bs).read k
          = (Memory.ofBytes (a + 1) bs).read k := by
        split
        · rfl
        · simp [Memory.read, hka]
      rw [step, ih]
      by_cases h : a + 1 ≤ k ∧ k - (a + 1) < bs.length
      · have h' : a ≤ k ∧ k - a < (b :: bs).length := by simp only [List.length_cons]; omega
        rw [dif_pos h, dif_pos h']
        have e : k - a = (k - (a + 1)) + 1 := by omega
        simp only [e, List.getElem_cons_succ]
      · have h' : ¬(a ≤ k ∧ k - a < (b :: bs).length) := by simp only [List.length_cons]; omega
        rw [dif_neg h, dif_neg h']

end Sys2Proof.Machine
end

