-- ==== Sys2Proof/Laws/State.lean ====
section
/-! SUPPORT. One lemma per field per update of the state: no later proof unfolds a record update. -/

namespace Sys2Proof.Machine

variable (s : State)

/-! ## setReg -/

@[simp] theorem setReg_x (i : RegIdx) (v : Word) : (s.setReg i v).x = s.x.set i.val v i.isLt := rfl
@[simp] theorem setReg_flags (i : RegIdx) (v : Word) : (s.setReg i v).flags = s.flags := rfl
@[simp] theorem setReg_pc (i : RegIdx) (v : Word) : (s.setReg i v).pc = s.pc := rfl
@[simp] theorem setReg_sp (i : RegIdx) (v : Word) : (s.setReg i v).sp = s.sp := rfl
@[simp] theorem setReg_mem (i : RegIdx) (v : Word) : (s.setReg i v).mem = s.mem := rfl
@[simp] theorem setReg_depth (i : RegIdx) (v : Word) : (s.setReg i v).depth = s.depth := rfl
@[simp] theorem setReg_stackLimit (i : RegIdx) (v : Word) : (s.setReg i v).stackLimit = s.stackLimit := rfl
@[simp] theorem setReg_dataBase (i : RegIdx) (v : Word) : (s.setReg i v).dataBase = s.dataBase := rfl
@[simp] theorem setReg_state (i : RegIdx) (v : Word) : (s.setReg i v).state = s.state := rfl
@[simp] theorem setReg_fault (i : RegIdx) (v : Word) : (s.setReg i v).fault = s.fault := rfl
@[simp] theorem setReg_status (i : RegIdx) (v : Word) : (s.setReg i v).status = s.status := rfl
@[simp] theorem setReg_out (i : RegIdx) (v : Word) : (s.setReg i v).out = s.out := rfl
@[simp] theorem setReg_hostInput (i : RegIdx) (v : Word) : (s.setReg i v).hostInput = s.hostInput := rfl
@[simp] theorem setReg_hostReads (i : RegIdx) (v : Word) : (s.setReg i v).hostReads = s.hostReads := rfl

/-! ## setFlags -/

@[simp] theorem setFlags_x (f : Flags) : (s.setFlags f).x = s.x := rfl
@[simp] theorem setFlags_flags (f : Flags) : (s.setFlags f).flags = f := rfl
@[simp] theorem setFlags_pc (f : Flags) : (s.setFlags f).pc = s.pc := rfl
@[simp] theorem setFlags_sp (f : Flags) : (s.setFlags f).sp = s.sp := rfl
@[simp] theorem setFlags_mem (f : Flags) : (s.setFlags f).mem = s.mem := rfl
@[simp] theorem setFlags_depth (f : Flags) : (s.setFlags f).depth = s.depth := rfl
@[simp] theorem setFlags_stackLimit (f : Flags) : (s.setFlags f).stackLimit = s.stackLimit := rfl
@[simp] theorem setFlags_dataBase (f : Flags) : (s.setFlags f).dataBase = s.dataBase := rfl
@[simp] theorem setFlags_state (f : Flags) : (s.setFlags f).state = s.state := rfl
@[simp] theorem setFlags_fault (f : Flags) : (s.setFlags f).fault = s.fault := rfl
@[simp] theorem setFlags_status (f : Flags) : (s.setFlags f).status = s.status := rfl
@[simp] theorem setFlags_out (f : Flags) : (s.setFlags f).out = s.out := rfl
@[simp] theorem setFlags_hostInput (f : Flags) : (s.setFlags f).hostInput = s.hostInput := rfl
@[simp] theorem setFlags_hostReads (f : Flags) : (s.setFlags f).hostReads = s.hostReads := rfl

/-! ## advance -/

@[simp] theorem advance_x (f : Format) : (s.advance f).x = s.x := rfl
@[simp] theorem advance_flags (f : Format) : (s.advance f).flags = s.flags := rfl
@[simp] theorem advance_pc (f : Format) : (s.advance f).pc = s.next f := rfl
@[simp] theorem advance_sp (f : Format) : (s.advance f).sp = s.sp := rfl
@[simp] theorem advance_mem (f : Format) : (s.advance f).mem = s.mem := rfl
@[simp] theorem advance_depth (f : Format) : (s.advance f).depth = s.depth := rfl
@[simp] theorem advance_stackLimit (f : Format) : (s.advance f).stackLimit = s.stackLimit := rfl
@[simp] theorem advance_dataBase (f : Format) : (s.advance f).dataBase = s.dataBase := rfl
@[simp] theorem advance_state (f : Format) : (s.advance f).state = s.state := rfl
@[simp] theorem advance_fault (f : Format) : (s.advance f).fault = s.fault := rfl
@[simp] theorem advance_status (f : Format) : (s.advance f).status = s.status := rfl
@[simp] theorem advance_out (f : Format) : (s.advance f).out = s.out := rfl
@[simp] theorem advance_hostInput (f : Format) : (s.advance f).hostInput = s.hostInput := rfl
@[simp] theorem advance_hostReads (f : Format) : (s.advance f).hostReads = s.hostReads := rfl

/-! ## jump -/

@[simp] theorem jump_x (t : Word) : (s.jump t).x = s.x := rfl
@[simp] theorem jump_flags (t : Word) : (s.jump t).flags = s.flags := rfl
@[simp] theorem jump_pc (t : Word) : (s.jump t).pc = t := rfl
@[simp] theorem jump_sp (t : Word) : (s.jump t).sp = s.sp := rfl
@[simp] theorem jump_mem (t : Word) : (s.jump t).mem = s.mem := rfl
@[simp] theorem jump_depth (t : Word) : (s.jump t).depth = s.depth := rfl
@[simp] theorem jump_stackLimit (t : Word) : (s.jump t).stackLimit = s.stackLimit := rfl
@[simp] theorem jump_dataBase (t : Word) : (s.jump t).dataBase = s.dataBase := rfl
@[simp] theorem jump_state (t : Word) : (s.jump t).state = s.state := rfl
@[simp] theorem jump_fault (t : Word) : (s.jump t).fault = s.fault := rfl
@[simp] theorem jump_status (t : Word) : (s.jump t).status = s.status := rfl
@[simp] theorem jump_out (t : Word) : (s.jump t).out = s.out := rfl
@[simp] theorem jump_hostInput (t : Word) : (s.jump t).hostInput = s.hostInput := rfl
@[simp] theorem jump_hostReads (t : Word) : (s.jump t).hostReads = s.hostReads := rfl

/-! ## writeWord -/

@[simp] theorem writeWord_x (a : Nat) (v : Word) : (s.writeWord a v).x = s.x := rfl
@[simp] theorem writeWord_flags (a : Nat) (v : Word) : (s.writeWord a v).flags = s.flags := rfl
@[simp] theorem writeWord_pc (a : Nat) (v : Word) : (s.writeWord a v).pc = s.pc := rfl
@[simp] theorem writeWord_sp (a : Nat) (v : Word) : (s.writeWord a v).sp = s.sp := rfl
@[simp] theorem writeWord_mem (a : Nat) (v : Word) : (s.writeWord a v).mem = s.mem.writeBytes a (wordBytes v) := rfl
@[simp] theorem writeWord_depth (a : Nat) (v : Word) : (s.writeWord a v).depth = s.depth := rfl
@[simp] theorem writeWord_stackLimit (a : Nat) (v : Word) : (s.writeWord a v).stackLimit = s.stackLimit := rfl
@[simp] theorem writeWord_dataBase (a : Nat) (v : Word) : (s.writeWord a v).dataBase = s.dataBase := rfl
@[simp] theorem writeWord_state (a : Nat) (v : Word) : (s.writeWord a v).state = s.state := rfl
@[simp] theorem writeWord_fault (a : Nat) (v : Word) : (s.writeWord a v).fault = s.fault := rfl
@[simp] theorem writeWord_status (a : Nat) (v : Word) : (s.writeWord a v).status = s.status := rfl
@[simp] theorem writeWord_out (a : Nat) (v : Word) : (s.writeWord a v).out = s.out := rfl
@[simp] theorem writeWord_hostInput (a : Nat) (v : Word) : (s.writeWord a v).hostInput = s.hostInput := rfl
@[simp] theorem writeWord_hostReads (a : Nat) (v : Word) : (s.writeWord a v).hostReads = s.hostReads := rfl

/-! ## raise -/

@[simp] theorem raise_x (k : ErrorKind) (a : Nat) : (s.raise k a).x = s.x := rfl
@[simp] theorem raise_flags (k : ErrorKind) (a : Nat) : (s.raise k a).flags = s.flags := rfl
@[simp] theorem raise_pc (k : ErrorKind) (a : Nat) : (s.raise k a).pc = s.pc := rfl
@[simp] theorem raise_sp (k : ErrorKind) (a : Nat) : (s.raise k a).sp = s.sp := rfl
@[simp] theorem raise_mem (k : ErrorKind) (a : Nat) : (s.raise k a).mem = s.mem := rfl
@[simp] theorem raise_depth (k : ErrorKind) (a : Nat) : (s.raise k a).depth = s.depth := rfl
@[simp] theorem raise_stackLimit (k : ErrorKind) (a : Nat) : (s.raise k a).stackLimit = s.stackLimit := rfl
@[simp] theorem raise_dataBase (k : ErrorKind) (a : Nat) : (s.raise k a).dataBase = s.dataBase := rfl
@[simp] theorem raise_state (k : ErrorKind) (a : Nat) : (s.raise k a).state = .faulted := rfl
@[simp] theorem raise_fault (k : ErrorKind) (a : Nat) : (s.raise k a).fault = some ⟨k, s.pc, capAddr a⟩ := rfl
@[simp] theorem raise_status (k : ErrorKind) (a : Nat) : (s.raise k a).status = s.status := rfl
@[simp] theorem raise_out (k : ErrorKind) (a : Nat) : (s.raise k a).out = s.out := rfl
@[simp] theorem raise_hostInput (k : ErrorKind) (a : Nat) : (s.raise k a).hostInput = s.hostInput := rfl
@[simp] theorem raise_hostReads (k : ErrorKind) (a : Nat) : (s.raise k a).hostReads = s.hostReads := rfl

/-! ## haltWith -/

@[simp] theorem haltWith_x (w : Word) : (s.haltWith w).x = s.x := rfl
@[simp] theorem haltWith_flags (w : Word) : (s.haltWith w).flags = s.flags := rfl
@[simp] theorem haltWith_pc (w : Word) : (s.haltWith w).pc = s.pc := rfl
@[simp] theorem haltWith_sp (w : Word) : (s.haltWith w).sp = s.sp := rfl
@[simp] theorem haltWith_mem (w : Word) : (s.haltWith w).mem = s.mem := rfl
@[simp] theorem haltWith_depth (w : Word) : (s.haltWith w).depth = s.depth := rfl
@[simp] theorem haltWith_stackLimit (w : Word) : (s.haltWith w).stackLimit = s.stackLimit := rfl
@[simp] theorem haltWith_dataBase (w : Word) : (s.haltWith w).dataBase = s.dataBase := rfl
@[simp] theorem haltWith_state (w : Word) : (s.haltWith w).state = .halted := rfl
@[simp] theorem haltWith_fault (w : Word) : (s.haltWith w).fault = s.fault := rfl
@[simp] theorem haltWith_status (w : Word) : (s.haltWith w).status = some w := rfl
@[simp] theorem haltWith_out (w : Word) : (s.haltWith w).out = s.out := rfl
@[simp] theorem haltWith_hostInput (w : Word) : (s.haltWith w).hostInput = s.hostInput := rfl
@[simp] theorem haltWith_hostReads (w : Word) : (s.haltWith w).hostReads = s.hostReads := rfl

/-! ## pushed -/

@[simp] theorem pushed_x (v : Word) : (s.pushed v).x = s.x := rfl
@[simp] theorem pushed_flags (v : Word) : (s.pushed v).flags = s.flags := rfl
@[simp] theorem pushed_pc (v : Word) : (s.pushed v).pc = s.pc := rfl
@[simp] theorem pushed_sp (v : Word) : (s.pushed v).sp = BitVec.ofNat 17 s.pushAddr := rfl
@[simp] theorem pushed_mem (v : Word) : (s.pushed v).mem = s.mem.writeBytes s.pushAddr (wordBytes v) := rfl
@[simp] theorem pushed_depth (v : Word) : (s.pushed v).depth = s.depth := rfl
@[simp] theorem pushed_stackLimit (v : Word) : (s.pushed v).stackLimit = s.stackLimit := rfl
@[simp] theorem pushed_dataBase (v : Word) : (s.pushed v).dataBase = s.dataBase := rfl
@[simp] theorem pushed_state (v : Word) : (s.pushed v).state = s.state := rfl
@[simp] theorem pushed_fault (v : Word) : (s.pushed v).fault = s.fault := rfl
@[simp] theorem pushed_status (v : Word) : (s.pushed v).status = s.status := rfl
@[simp] theorem pushed_out (v : Word) : (s.pushed v).out = s.out := rfl
@[simp] theorem pushed_hostInput (v : Word) : (s.pushed v).hostInput = s.hostInput := rfl
@[simp] theorem pushed_hostReads (v : Word) : (s.pushed v).hostReads = s.hostReads := rfl

/-! ## popped -/

@[simp] theorem popped_x : s.popped.x = s.x := rfl
@[simp] theorem popped_flags : s.popped.flags = s.flags := rfl
@[simp] theorem popped_pc : s.popped.pc = s.pc := rfl
@[simp] theorem popped_sp : s.popped.sp = BitVec.ofNat 17 (s.sp.toNat + Config.wordBytes) := rfl
@[simp] theorem popped_mem : s.popped.mem = s.mem := rfl
@[simp] theorem popped_depth : s.popped.depth = s.depth := rfl
@[simp] theorem popped_stackLimit : s.popped.stackLimit = s.stackLimit := rfl
@[simp] theorem popped_dataBase : s.popped.dataBase = s.dataBase := rfl
@[simp] theorem popped_state : s.popped.state = s.state := rfl
@[simp] theorem popped_fault : s.popped.fault = s.fault := rfl
@[simp] theorem popped_status : s.popped.status = s.status := rfl
@[simp] theorem popped_out : s.popped.out = s.out := rfl
@[simp] theorem popped_hostInput : s.popped.hostInput = s.hostInput := rfl
@[simp] theorem popped_hostReads : s.popped.hostReads = s.hostReads := rfl

/-! ## incDepth -/

@[simp] theorem incDepth_x : s.incDepth.x = s.x := rfl
@[simp] theorem incDepth_flags : s.incDepth.flags = s.flags := rfl
@[simp] theorem incDepth_pc : s.incDepth.pc = s.pc := rfl
@[simp] theorem incDepth_sp : s.incDepth.sp = s.sp := rfl
@[simp] theorem incDepth_mem : s.incDepth.mem = s.mem := rfl
@[simp] theorem incDepth_depth : s.incDepth.depth = s.depth + 1 := rfl
@[simp] theorem incDepth_stackLimit : s.incDepth.stackLimit = s.stackLimit := rfl
@[simp] theorem incDepth_dataBase : s.incDepth.dataBase = s.dataBase := rfl
@[simp] theorem incDepth_state : s.incDepth.state = s.state := rfl
@[simp] theorem incDepth_fault : s.incDepth.fault = s.fault := rfl
@[simp] theorem incDepth_status : s.incDepth.status = s.status := rfl
@[simp] theorem incDepth_out : s.incDepth.out = s.out := rfl
@[simp] theorem incDepth_hostInput : s.incDepth.hostInput = s.hostInput := rfl
@[simp] theorem incDepth_hostReads : s.incDepth.hostReads = s.hostReads := rfl

/-! ## decDepth -/

@[simp] theorem decDepth_x : s.decDepth.x = s.x := rfl
@[simp] theorem decDepth_flags : s.decDepth.flags = s.flags := rfl
@[simp] theorem decDepth_pc : s.decDepth.pc = s.pc := rfl
@[simp] theorem decDepth_sp : s.decDepth.sp = s.sp := rfl
@[simp] theorem decDepth_mem : s.decDepth.mem = s.mem := rfl
@[simp] theorem decDepth_depth : s.decDepth.depth = s.depth - 1 := rfl
@[simp] theorem decDepth_stackLimit : s.decDepth.stackLimit = s.stackLimit := rfl
@[simp] theorem decDepth_dataBase : s.decDepth.dataBase = s.dataBase := rfl
@[simp] theorem decDepth_state : s.decDepth.state = s.state := rfl
@[simp] theorem decDepth_fault : s.decDepth.fault = s.fault := rfl
@[simp] theorem decDepth_status : s.decDepth.status = s.status := rfl
@[simp] theorem decDepth_out : s.decDepth.out = s.out := rfl
@[simp] theorem decDepth_hostInput : s.decDepth.hostInput = s.hostInput := rfl
@[simp] theorem decDepth_hostReads : s.decDepth.hostReads = s.hostReads := rfl

/-! ## emit -/

@[simp] theorem emit_x (e : OutEvent) : (s.emit e).x = s.x := rfl
@[simp] theorem emit_flags (e : OutEvent) : (s.emit e).flags = s.flags := rfl
@[simp] theorem emit_pc (e : OutEvent) : (s.emit e).pc = s.pc := rfl
@[simp] theorem emit_sp (e : OutEvent) : (s.emit e).sp = s.sp := rfl
@[simp] theorem emit_mem (e : OutEvent) : (s.emit e).mem = s.mem := rfl
@[simp] theorem emit_depth (e : OutEvent) : (s.emit e).depth = s.depth := rfl
@[simp] theorem emit_stackLimit (e : OutEvent) : (s.emit e).stackLimit = s.stackLimit := rfl
@[simp] theorem emit_dataBase (e : OutEvent) : (s.emit e).dataBase = s.dataBase := rfl
@[simp] theorem emit_state (e : OutEvent) : (s.emit e).state = s.state := rfl
@[simp] theorem emit_fault (e : OutEvent) : (s.emit e).fault = s.fault := rfl
@[simp] theorem emit_status (e : OutEvent) : (s.emit e).status = s.status := rfl
@[simp] theorem emit_out (e : OutEvent) : (s.emit e).out = s.out ++ [e] := rfl
@[simp] theorem emit_hostInput (e : OutEvent) : (s.emit e).hostInput = s.hostInput := rfl
@[simp] theorem emit_hostReads (e : OutEvent) : (s.emit e).hostReads = s.hostReads := rfl

/-! ## writeAlu -/

@[simp] theorem writeAlu_x (rd : RegIdx) (o : AluOut) (f : Format) : (s.writeAlu rd o f).x = s.x.set rd.val o.r rd.isLt := rfl
@[simp] theorem writeAlu_flags (rd : RegIdx) (o : AluOut) (f : Format) : (s.writeAlu rd o f).flags = o.f := rfl
@[simp] theorem writeAlu_pc (rd : RegIdx) (o : AluOut) (f : Format) : (s.writeAlu rd o f).pc = s.next f := rfl
@[simp] theorem writeAlu_sp (rd : RegIdx) (o : AluOut) (f : Format) : (s.writeAlu rd o f).sp = s.sp := rfl
@[simp] theorem writeAlu_mem (rd : RegIdx) (o : AluOut) (f : Format) : (s.writeAlu rd o f).mem = s.mem := rfl
@[simp] theorem writeAlu_depth (rd : RegIdx) (o : AluOut) (f : Format) : (s.writeAlu rd o f).depth = s.depth := rfl
@[simp] theorem writeAlu_stackLimit (rd : RegIdx) (o : AluOut) (f : Format) : (s.writeAlu rd o f).stackLimit = s.stackLimit := rfl
@[simp] theorem writeAlu_dataBase (rd : RegIdx) (o : AluOut) (f : Format) : (s.writeAlu rd o f).dataBase = s.dataBase := rfl
@[simp] theorem writeAlu_state (rd : RegIdx) (o : AluOut) (f : Format) : (s.writeAlu rd o f).state = s.state := rfl
@[simp] theorem writeAlu_fault (rd : RegIdx) (o : AluOut) (f : Format) : (s.writeAlu rd o f).fault = s.fault := rfl
@[simp] theorem writeAlu_status (rd : RegIdx) (o : AluOut) (f : Format) : (s.writeAlu rd o f).status = s.status := rfl
@[simp] theorem writeAlu_out (rd : RegIdx) (o : AluOut) (f : Format) : (s.writeAlu rd o f).out = s.out := rfl
@[simp] theorem writeAlu_hostInput (rd : RegIdx) (o : AluOut) (f : Format) : (s.writeAlu rd o f).hostInput = s.hostInput := rfl
@[simp] theorem writeAlu_hostReads (rd : RegIdx) (o : AluOut) (f : Format) : (s.writeAlu rd o f).hostReads = s.hostReads := rfl

/-! ## takeAnswer -/

@[simp] theorem takeAnswer_x : s.takeAnswer.x = s.x := by unfold State.takeAnswer; split <;> rfl
@[simp] theorem takeAnswer_flags : s.takeAnswer.flags = s.flags := by unfold State.takeAnswer; split <;> rfl
@[simp] theorem takeAnswer_pc : s.takeAnswer.pc = s.pc := by unfold State.takeAnswer; split <;> rfl
@[simp] theorem takeAnswer_sp : s.takeAnswer.sp = s.sp := by unfold State.takeAnswer; split <;> rfl
@[simp] theorem takeAnswer_mem : s.takeAnswer.mem = s.mem := by unfold State.takeAnswer; split <;> rfl
@[simp] theorem takeAnswer_depth : s.takeAnswer.depth = s.depth := by unfold State.takeAnswer; split <;> rfl
@[simp] theorem takeAnswer_stackLimit : s.takeAnswer.stackLimit = s.stackLimit := by unfold State.takeAnswer; split <;> rfl
@[simp] theorem takeAnswer_dataBase : s.takeAnswer.dataBase = s.dataBase := by unfold State.takeAnswer; split <;> rfl
@[simp] theorem takeAnswer_state : s.takeAnswer.state = s.state := by unfold State.takeAnswer; split <;> rfl
@[simp] theorem takeAnswer_fault : s.takeAnswer.fault = s.fault := by unfold State.takeAnswer; split <;> rfl
@[simp] theorem takeAnswer_status : s.takeAnswer.status = s.status := by unfold State.takeAnswer; split <;> rfl
@[simp] theorem takeAnswer_out : s.takeAnswer.out = s.out := by unfold State.takeAnswer; split <;> rfl

/-! ## Registers -/

/-- A register read after a register write: the written one reads as written, every other as before. -/
theorem reg_setReg (i j : RegIdx) (v : Word) : (s.setReg i v).reg j = if j = i then v else s.reg j := by
  simp only [State.reg, State.setReg, Vector.get_eq_getElem, Vector.getElem_set, Fin.ext_iff, eq_comm]

@[simp] theorem reg_setReg_same (i : RegIdx) (v : Word) : (s.setReg i v).reg i = v := by
  simp [reg_setReg]

@[simp] theorem reg_setReg_ne (i j : RegIdx) (v : Word) (h : j ≠ i) : (s.setReg i v).reg j = s.reg j := by
  simp [reg_setReg, h]

/-- A register reads the same in two states with the same register file. -/
theorem reg_congr (t : State) (h : t.x = s.x) (i : RegIdx) : t.reg i = s.reg i := by
  simp [State.reg, h]

@[simp] theorem reg_setFlags (i : RegIdx) (f : Flags) : (s.setFlags f).reg i = s.reg i := rfl
@[simp] theorem reg_advance (i : RegIdx) (f : Format) : (s.advance f).reg i = s.reg i := rfl
@[simp] theorem reg_jump (i : RegIdx) (t : Word) : (s.jump t).reg i = s.reg i := rfl
@[simp] theorem reg_writeWord (i : RegIdx) (a : Nat) (v : Word) : (s.writeWord a v).reg i = s.reg i := rfl
@[simp] theorem reg_raise (i : RegIdx) (k : ErrorKind) (a : Nat) : (s.raise k a).reg i = s.reg i := rfl
@[simp] theorem reg_haltWith (i : RegIdx) (w : Word) : (s.haltWith w).reg i = s.reg i := rfl
@[simp] theorem reg_pushed (i : RegIdx) (v : Word) : (s.pushed v).reg i = s.reg i := rfl
@[simp] theorem reg_popped (i : RegIdx) : s.popped.reg i = s.reg i := rfl
@[simp] theorem reg_incDepth (i : RegIdx) : s.incDepth.reg i = s.reg i := rfl
@[simp] theorem reg_decDepth (i : RegIdx) : s.decDepth.reg i = s.reg i := rfl
@[simp] theorem reg_emit (i : RegIdx) (e : OutEvent) : (s.emit e).reg i = s.reg i := rfl
@[simp] theorem reg_takeAnswer (i : RegIdx) : s.takeAnswer.reg i = s.reg i := reg_congr s _ (takeAnswer_x s) i

theorem reg_writeAlu (rd j : RegIdx) (o : AluOut) (f : Format) :
    (s.writeAlu rd o f).reg j = if j = rd then o.r else s.reg j := reg_setReg s rd j o.r

end Sys2Proof.Machine
end

