-- ==== Sys2Proof/Laws/Ops.lean ====
section
/-! SUPPORT. One lemma per shared operation that says everything it can answer, and what each guard says. -/

namespace Sys2Proof.Machine

/-! ## Guards -/

@[simp] theorem guard_of_true {s : State} {c : Bool} (k : ErrorKind) (a : Nat) (body : Result) (h : c = true) :
    s.guard c k a body = body := by simp [State.guard, h]

@[simp] theorem guard_of_false {s : State} {c : Bool} (k : ErrorKind) (a : Nat) (body : Result) (h : c = false) :
    s.guard c k a body = .next (s.raise k a) := by simp [State.guard, h]

/-- A guarded body runs, or the fault is taken. -/
theorem guard_cases {s t : State} {c : Bool} {k : ErrorKind} {a : Nat} {body : Result}
    (h : s.guard c k a body = .next t) : (c = true ∧ body = .next t) ∨ (c = false ∧ t = s.raise k a) := by
  cases c with
  | true => exact .inl ⟨rfl, by simpa using h⟩
  | false => exact .inr ⟨rfl, by simpa [eq_comm] using h⟩

theorem inBounds_iff (a n : Nat) : inBounds a n = true ↔ a + n ≤ 65536 :=
  decide_eq_true_iff

theorem inBounds_eq_false_iff (a n : Nat) : inBounds a n = false ↔ 65536 < a + n :=
  decide_eq_false_iff_not.trans Nat.not_le

theorem canPush_iff (s : State) : s.canPush = true ↔ s.stackLimit.toNat + 3 ≤ s.sp.toNat :=
  decide_eq_true_iff

theorem canPush_eq_false_iff (s : State) : s.canPush = false ↔ s.sp.toNat < s.stackLimit.toNat + 3 :=
  decide_eq_false_iff_not.trans Nat.not_le

theorem canPop_iff (s : State) : s.canPop = true ↔ s.sp.toNat + 3 ≤ 65536 :=
  decide_eq_true_iff

theorem canPop_eq_false_iff (s : State) : s.canPop = false ↔ 65536 < s.sp.toNat + 3 :=
  decide_eq_false_iff_not.trans Nat.not_le

theorem canReturn_iff (s : State) : s.canReturn = true ↔ 0 < s.depth := by
  simp [State.canReturn]

theorem one_le_maxStackDepth : 1 ≤ Config.maxStackDepth := by
  simp [Config.maxStackDepth]

/-- The call guard is the spec's, for any recursion bound of at least 1 (R33, R6). -/
theorem canCall_iff (s : State) {maxDepth : Nat} (h : 1 ≤ maxDepth) :
    s.canCall maxDepth = true ↔ s.depth + 1 ≤ maxDepth := by
  simp only [State.canCall, Bool.or_eq_true, beq_iff_eq, decide_eq_true_eq]
  omega

/-! ## Stack -/

theorem pushAddr_eq (s : State) : s.pushAddr = s.sp.toNat - 3 := rfl

/-- The word pushed is on top: sp is where it was written. -/
theorem pushed_sp_toNat (s : State) (v : Word) : (s.pushed v).sp.toNat = s.sp.toNat - 3 := by
  have := s.sp.isLt
  simp only [pushed_sp, pushAddr_eq, BitVec.toNat_ofNat]
  omega

theorem popped_sp_toNat (s : State) (h : s.canPop = true) : s.popped.sp.toNat = s.sp.toNat + 3 := by
  have := (canPop_iff s).mp h
  simp only [popped_sp, Config.wordBytes, BitVec.toNat_ofNat]
  omega

/-- What a push answers (R121). -/
theorem push_cases {s t : State} {v : Word} {k : State → Result} (h : s.push v k = .next t) :
    (s.canPush = true ∧ inBounds s.pushAddr Config.wordBytes = true ∧ k (s.pushed v) = .next t) ∨
    (s.canPush = false ∧ t = s.raise .stackOverflow 0) ∨
    (s.canPush = true ∧ inBounds s.pushAddr Config.wordBytes = false ∧ t = s.raise .outOfBounds s.pushAddr) := by
  unfold State.push at h
  rcases guard_cases h with ⟨hc, h⟩ | h
  · rcases guard_cases h with ⟨hb, h⟩ | ⟨hb, h⟩
    · exact .inl ⟨hc, hb, h⟩
    · exact .inr (.inr ⟨hc, hb, h⟩)
  · exact .inr (.inl h)

/-- A push that its guards admit. -/
theorem push_ok {s : State} (v : Word) (k : State → Result) (h : s.stackLimit.toNat + 3 ≤ s.sp.toNat)
    (htop : s.sp.toNat ≤ 65536) : s.push v k = k (s.pushed v) := by
  unfold State.push
  rw [guard_of_true _ _ _ ((canPush_iff s).mpr h), guard_of_true]
  rw [Config.wordBytes, inBounds_iff, pushAddr_eq]
  omega

/-- A push on a full stack (R121). -/
theorem push_full {s : State} (v : Word) (k : State → Result) (h : s.sp.toNat < s.stackLimit.toNat + 3) :
    s.push v k = .next (s.raise .stackOverflow 0) := by
  unfold State.push
  rw [guard_of_false _ _ _ ((canPush_eq_false_iff s).mpr h)]

/-- What an operation on the top of the stack answers (R122, R123, R136). -/
theorem withTop_cases {s t : State} {body : Result} (h : s.withTop body = .next t) :
    (s.canPop = true ∧ body = .next t) ∨ (s.canPop = false ∧ t = s.raise .stackUnderflow 0) :=
  guard_cases h

theorem withTop_ok {s : State} (body : Result) (h : s.sp.toNat + 3 ≤ 65536) : s.withTop body = body :=
  guard_of_true _ _ _ ((canPop_iff s).mpr h)

theorem withTop_empty {s : State} (body : Result) (h : 65536 < s.sp.toNat + 3) :
    s.withTop body = .next (s.raise .stackUnderflow 0) :=
  guard_of_false _ _ _ ((canPop_eq_false_iff s).mpr h)

/-! ## Loads, stores, jumps, division -/

/-- What a load answers (R124, R126). -/
theorem loadTo_cases {s t : State} {rd : RegIdx} {a : Nat} {f : Format} (h : s.loadTo rd a f = .next t) :
    (inBounds a Config.wordBytes = true ∧ t = (s.setReg rd (s.readWord a)).advance f) ∨
    (inBounds a Config.wordBytes = false ∧ t = s.raise .outOfBounds a) := by
  rcases guard_cases h with ⟨hb, h⟩ | h
  · cases h; exact .inl ⟨hb, rfl⟩
  · exact .inr h

/-- What a store answers (R125, R127). -/
theorem storeAt_cases {s t : State} {a : Nat} {v : Word} {f : Format} (h : s.storeAt a v f = .next t) :
    (inBounds a Config.wordBytes = true ∧ t = (s.writeWord a v).advance f) ∨
    (inBounds a Config.wordBytes = false ∧ t = s.raise .outOfBounds a) := by
  rcases guard_cases h with ⟨hb, h⟩ | h
  · cases h; exact .inl ⟨hb, rfl⟩
  · exact .inr h

/-- What a conditional jump answers (R129 to R134). -/
theorem jumpIf_cases {s t : State} {c : Bool} {target : Addr} (h : s.jumpIf c target = .next t) :
    (c = true ∧ t = s.jump (zext target)) ∨ (c = false ∧ t = s.advance .a) := by
  unfold State.jumpIf at h
  cases c <;> simp at h <;> simp [h]

/-- What a division answers (R102, R103). -/
theorem guardDivisor_cases {s t : State} {d : Word} {body : Result} (h : s.guardDivisor d body = .next t) :
    (d.toNat ≠ 0 ∧ body = .next t) ∨ (d.toNat = 0 ∧ t = s.raise .divisionByZero 0) := by
  rcases guard_cases h with ⟨hd, h⟩ | ⟨hd, h⟩
  · exact .inl ⟨of_decide_eq_true hd, h⟩
  · exact .inr ⟨by simpa using hd, h⟩

/-! ## Calls and the host -/

/-- What a call answers (R135). -/
theorem callWith_cases {s t : State} {maxDepth : Nat} {target : Addr} (h : s.callWith maxDepth target = .next t) :
    (s.canCall maxDepth = true ∧ s.canPush = true ∧ inBounds s.pushAddr Config.wordBytes = true ∧
      t = (s.pushed (s.next .a)).incDepth.jump (zext target)) ∨
    (s.canCall maxDepth = false ∧ t = s.raise .recursionLimit 0) ∨
    (s.canCall maxDepth = true ∧ s.canPush = false ∧ t = s.raise .stackOverflow 0) ∨
    (s.canCall maxDepth = true ∧ s.canPush = true ∧ inBounds s.pushAddr Config.wordBytes = false ∧
      t = s.raise .outOfBounds s.pushAddr) := by
  rcases guard_cases h with ⟨hc, h⟩ | h
  · rcases push_cases h with ⟨hp, hb, h⟩ | ⟨hp, h⟩ | ⟨hp, hb, h⟩
    · cases h; exact .inl ⟨hc, hp, hb, rfl⟩
    · exact .inr (.inr (.inl ⟨hc, hp, h⟩))
    · exact .inr (.inr (.inr ⟨hc, hp, hb, h⟩))
  · exact .inr (.inl h)

/-- What an integer read answers when it answers a next state (R139). -/
theorem readInt_cases {s t : State} {r : RegIdx} (h : s.readInt r = .next t) :
    (∃ n, s.hostAnswer = .int n ∧ t = (s.takeAnswer.setReg r (wrap n)).advance .ira) ∨
    (s.hostAnswer = .noInput ∧ t = s.raise .inputUnavailable 0) := by
  unfold State.readInt at h
  cases hh : s.hostAnswer with
  | int n => rw [hh] at h; cases h; exact .inl ⟨n, rfl, rfl⟩
  | noInput => rw [hh] at h; cases h; exact .inr ⟨rfl, rfl⟩
  | never => rw [hh] at h; cases h

/-- What a string print answers (R140). -/
theorem printStr_cases {s t : State} {off : Addr} (h : s.printStr off = .next t) :
    (inBounds (s.stringAddr off) 2 = true ∧
      inBounds (s.stringAddr off + 2) (s.stringLen (s.stringAddr off)) = true ∧
      t = (s.emit (.outStr (s.mem.readBytes (s.stringAddr off + 2) (s.stringLen (s.stringAddr off))))).advance .ira) ∨
    (inBounds (s.stringAddr off) 2 = false ∧ t = s.raise .outOfBounds (s.stringAddr off)) ∨
    (inBounds (s.stringAddr off) 2 = true ∧
      inBounds (s.stringAddr off + 2) (s.stringLen (s.stringAddr off)) = false ∧
      t = s.raise .outOfBounds (s.stringAddr off + 2)) := by
  rcases guard_cases h with ⟨ha, h⟩ | h
  · rcases guard_cases h with ⟨hb, h⟩ | ⟨hb, h⟩
    · cases h; exact .inl ⟨ha, hb, rfl⟩
    · exact .inr (.inr ⟨ha, hb, h⟩)
  · exact .inr (.inl h)

/-- What SYSCALL answers, by its id (R137). -/
theorem execSyscall_cases {s t : State} {id : Word} {r : RegIdx} {off : Addr} (h : execSyscall id r off s = .next t) :
    (id.toNat = 0 ∧ t = (s.emit (.outInt (s.reg r).toInt)).advance .ira) ∨
    (id.toNat = 1 ∧ s.readInt r = .next t) ∨
    (id.toNat = 2 ∧ s.printStr off = .next t) ∨
    (id.toNat = 3 ∧ t = s.haltWith (s.reg r)) ∨
    (4 ≤ id.toNat ∧ t = s.raise .unknownId 0) := by
  unfold execSyscall at h
  split at h
  · rename_i e; cases h; exact .inl ⟨e, rfl⟩
  · rename_i e; exact .inr (.inl ⟨e, h⟩)
  · rename_i e; exact .inr (.inr (.inl ⟨e, h⟩))
  · rename_i e; cases h; exact .inr (.inr (.inr (.inl ⟨e, rfl⟩)))
  · rename_i h0 h1 h2 h3
    cases h
    have n0 : id.toNat ≠ 0 := h0
    have n1 : id.toNat ≠ 1 := h1
    have n2 : id.toNat ≠ 2 := h2
    have n3 : id.toNat ≠ 3 := h3
    exact .inr (.inr (.inr (.inr ⟨by omega, rfl⟩)))

/-! ## The step -/

/-- The step of a running machine. -/
theorem step_running {s : State} (h : s.state = .running) : step s =
    match decode s.fetchWindow with
    | .error e => .next (s.raiseDecode e)
    | .ok (i, _) => exec i s := by
  simp only [step, h]
  all_goals rfl

/-- Everything a step that has a next state can do (R79). -/
theorem step_cases {s t : State} (h : step s = .next t) : s.state = .running ∧
    ((∃ e, decode s.fetchWindow = .error e ∧ t = s.raiseDecode e) ∨
      ∃ i rest, decode s.fetchWindow = .ok (i, rest) ∧ exec i s = .next t) := by
  cases hs : s.state with
  | halted => simp [step, hs] at h
  | faulted => simp [step, hs] at h
  | running =>
    refine ⟨rfl, ?_⟩
    rw [step_running hs] at h
    cases hd : decode s.fetchWindow with
    | error e => rw [hd] at h; cases h; exact .inl ⟨e, rfl, rfl⟩
    | ok p => obtain ⟨i, rest⟩ := p; rw [hd] at h; exact .inr ⟨i, rest, rfl, h⟩

/-- The address of a record is the offending one, capped (R144). -/
theorem capAddr_eq (a : Nat) : capAddr a = if a < 2 ^ 24 then BitVec.ofNat 24 a else 0xFFFFFF := by
  unfold capAddr
  split
  · rw [Nat.min_eq_left (by omega)]
  · rw [Nat.min_eq_right (by omega)]
    rfl

end Sys2Proof.Machine
end

