-- ==== Sys2Proof/Laws/Exec.lean ====
section
/-! SUPPORT. What an instruction can do, said once: every next state of `exec` is a fault's or one of thirteen forms. -/

namespace Sys2Proof.Machine

/-- The next states of the instruction `i` at `s`. -/
inductive ExecForm (i : Instr) (s : State) : State → Prop
  /-- a fault (R145) -/
  | raised (k : ErrorKind) (a : Nat) (h : k ≠ .outOfBounds → a = 0) : ExecForm i s (s.raise k a)
  /-- one register written (LOADI, MOV, PEEK, LOAD, ALOAD) -/
  | wroteReg (rd : RegIdx) (v : Word) (f : Format) (hd : rd ∈ destinations i) (hf : writesFlags i = false)
      (hs : storeAddr i s = none) (hp : movesSp i = false) : ExecForm i s ((s.setReg rd v).advance f)
  /-- SWAP -/
  | swapped (ra rb : RegIdx) (hi : i = .swap ra rb) :
      ExecForm i s (((s.setReg ra (s.reg rb)).setReg rb (s.reg ra)).advance .rr)
  /-- an ALU result written -/
  | wroteAlu (rd : RegIdx) (o : AluOut) (f : Format) (hd : rd ∈ destinations i) (hf : writesFlags i = true)
      (hs : storeAddr i s = none) (hp : movesSp i = false) : ExecForm i s (s.writeAlu rd o f)
  /-- CMP -/
  | compared (ra rb : RegIdx) (hi : i = .cmp ra rb) :
      ExecForm i s ((s.setFlags (aluSub (s.reg ra) (s.reg rb)).f).advance .rr)
  /-- PUSH -/
  | pushed (rs : RegIdx) (hi : i = .push rs) (hc : s.canPush = true) (hb : inBounds s.pushAddr Config.wordBytes = true) :
      ExecForm i s ((s.pushed (s.reg rs)).advance .r)
  /-- POP -/
  | popped (rd : RegIdx) (hi : i = .pop rd) (hc : s.canPop = true) : ExecForm i s ((s.popped.setReg rd s.top).advance .r)
  /-- a word stored (STORE, ASTORE) -/
  | stored (a : Nat) (v : Word) (f : Format) (hb : inBounds a Config.wordBytes = true) (hs : storeAddr i s = some a)
      (hf : writesFlags i = false) (hp : movesSp i = false) : ExecForm i s ((s.writeWord a v).advance f)
  /-- pc alone set (the seven jumps, taken or not) -/
  | jumped (p : Word) (hf : writesFlags i = false) (hs : storeAddr i s = none) (hp : movesSp i = false) :
      ExecForm i s (s.jump p)
  /-- CALL -/
  | called (target : Addr) (hi : i = .call target) (hd : s.canCall Config.maxStackDepth = true) (hc : s.canPush = true)
      (hb : inBounds s.pushAddr Config.wordBytes = true) :
      ExecForm i s ((s.pushed (s.next .a)).incDepth.jump (zext target))
  /-- RET -/
  | returned (hi : i = .ret) (hd : s.canReturn = true) (hc : s.canPop = true) :
      ExecForm i s (s.popped.decDepth.jump s.top)
  /-- SYSCALL id 0 or 2: an event emitted -/
  | emitted (id : Word) (r : RegIdx) (off : Addr) (e : OutEvent) (hi : i = .syscall id r off)
      (hid : id.toNat = 0 ∨ id.toNat = 2) : ExecForm i s ((s.emit e).advance .ira)
  /-- SYSCALL id 1: an answer taken -/
  | answered (id : Word) (r : RegIdx) (off : Addr) (n : Int) (hi : i = .syscall id r off) (hid : id.toNat = 1) :
      ExecForm i s ((s.takeAnswer.setReg r (wrap n)).advance .ira)
  /-- HALT, SYSCALL id 3: the run ended -/
  | halted (v : Word) (hi : i = .halt ∨ ∃ id r off, i = .syscall id r off) : ExecForm i s (s.haltWith v)

/-! ## The shared operations as forms -/

variable {i : Instr} {s t : State}

theorem loadTo_form {rd : RegIdx} {a : Nat} {f : Format} (h : s.loadTo rd a f = .next t) (hd : rd ∈ destinations i)
    (hf : writesFlags i = false) (hs : storeAddr i s = none) (hp : movesSp i = false) : ExecForm i s t := by
  rcases loadTo_cases h with ⟨_, rfl⟩ | ⟨_, rfl⟩
  · exact .wroteReg rd _ f hd hf hs hp
  · exact .raised _ _ fun h => absurd rfl h

theorem storeAt_form {a : Nat} {v : Word} {f : Format} (h : s.storeAt a v f = .next t) (hs : storeAddr i s = some a)
    (hf : writesFlags i = false) (hp : movesSp i = false) : ExecForm i s t := by
  rcases storeAt_cases h with ⟨hb, rfl⟩ | ⟨_, rfl⟩
  · exact .stored a v f hb hs hf hp
  · exact .raised _ _ fun h => absurd rfl h

theorem jumpIf_form {c : Bool} {target : Addr} (h : s.jumpIf c target = .next t) (hf : writesFlags i = false)
    (hs : storeAddr i s = none) (hp : movesSp i = false) : ExecForm i s t := by
  rcases jumpIf_cases h with ⟨_, rfl⟩ | ⟨_, rfl⟩ <;> exact .jumped _ hf hs hp

theorem writeAlu_form {rd : RegIdx} {o : AluOut} {f : Format} (h : (.next (s.writeAlu rd o f) : Result) = .next t)
    (hd : rd ∈ destinations i) (hf : writesFlags i = true) (hs : storeAddr i s = none) (hp : movesSp i = false) :
    ExecForm i s t := by
  cases h; exact .wroteAlu rd o f hd hf hs hp

theorem guardDivisor_form {d : Word} {rd : RegIdx} {o : AluOut} {f : Format}
    (h : s.guardDivisor d (.next (s.writeAlu rd o f)) = .next t) (hd : rd ∈ destinations i) (hf : writesFlags i = true)
    (hs : storeAddr i s = none) (hp : movesSp i = false) : ExecForm i s t := by
  rcases guardDivisor_cases h with ⟨_, h⟩ | ⟨_, rfl⟩
  · exact writeAlu_form h hd hf hs hp
  · exact .raised _ _ fun _ => rfl

theorem execPush_form {rs : RegIdx} (h : execPush rs s = .next t) : ExecForm (.push rs) s t := by
  rcases push_cases (v := s.reg rs) (k := fun t => .next (t.advance .r)) h with ⟨hc, hb, h⟩ | ⟨_, rfl⟩ | ⟨_, _, rfl⟩
  · cases h; exact .pushed rs rfl hc hb
  · exact .raised _ _ fun _ => rfl
  · exact .raised _ _ fun h => absurd rfl h

theorem execPop_form {rd : RegIdx} (h : execPop rd s = .next t) : ExecForm (.pop rd) s t := by
  rcases withTop_cases h with ⟨hc, h⟩ | ⟨_, rfl⟩
  · cases h; exact .popped rd rfl hc
  · exact .raised _ _ fun _ => rfl

theorem execPeek_form {rd : RegIdx} (h : execPeek rd s = .next t) : ExecForm (.peek rd) s t := by
  rcases withTop_cases h with ⟨_, h⟩ | ⟨_, rfl⟩
  · cases h; exact .wroteReg rd _ _ (List.mem_singleton.mpr rfl) rfl rfl rfl
  · exact .raised _ _ fun _ => rfl

theorem execCall_form {target : Addr} (h : execCall target s = .next t) : ExecForm (.call target) s t := by
  rcases callWith_cases h with ⟨hd, hc, hb, rfl⟩ | ⟨_, rfl⟩ | ⟨_, _, rfl⟩ | ⟨_, _, _, rfl⟩
  · exact .called target rfl hd hc hb
  · exact .raised _ _ fun _ => rfl
  · exact .raised _ _ fun _ => rfl
  · exact .raised _ _ fun h => absurd rfl h

theorem execRet_form (h : execRet s = .next t) : ExecForm .ret s t := by
  rcases guard_cases h with ⟨hd, h⟩ | ⟨_, rfl⟩
  · rcases withTop_cases h with ⟨hc, h⟩ | ⟨_, rfl⟩
    · cases h; exact .returned rfl hd hc
    · exact .raised _ _ fun _ => rfl
  · exact .raised _ _ fun _ => rfl

theorem execSyscall_form {id : Word} {r : RegIdx} {off : Addr} (h : execSyscall id r off s = .next t) :
    ExecForm (.syscall id r off) s t := by
  rcases execSyscall_cases h with ⟨hid, rfl⟩ | ⟨hid, h⟩ | ⟨hid, h⟩ | ⟨_, rfl⟩ | ⟨_, rfl⟩
  · exact .emitted _ _ _ _ rfl (.inl hid)
  · rcases readInt_cases h with ⟨n, _, rfl⟩ | ⟨_, rfl⟩
    · exact .answered _ _ _ n rfl hid
    · exact .raised _ _ fun _ => rfl
  · rcases printStr_cases h with ⟨_, _, rfl⟩ | ⟨_, rfl⟩ | ⟨_, _, rfl⟩
    · exact .emitted _ _ _ _ rfl (.inr hid)
    · exact .raised _ _ fun h => absurd rfl h
    · exact .raised _ _ fun h => absurd rfl h
  · exact .halted _ (.inr ⟨_, _, _, rfl⟩)
  · exact .raised _ _ fun _ => rfl

/-- Everything an instruction that has a next state can do. -/
theorem exec_form (h : exec i s = .next t) : ExecForm i s t := by
  have one : ∀ r : RegIdx, r ∈ [r] := fun r => List.mem_singleton.mpr rfl
  cases i with
  | halt => cases h; exact .halted _ (.inl rfl)
  | loadi rd _ => cases h; exact .wroteReg rd _ _ (one rd) rfl rfl rfl
  | mov rd _ => cases h; exact .wroteReg rd _ _ (one rd) rfl rfl rfl
  | swap ra rb => cases h; exact .swapped ra rb rfl
  | add rd _ _ => exact writeAlu_form h (one rd) rfl rfl rfl
  | sub rd _ _ => exact writeAlu_form h (one rd) rfl rfl rfl
  | mul rd _ _ => exact writeAlu_form h (one rd) rfl rfl rfl
  | div rd _ _ => exact guardDivisor_form h (one rd) rfl rfl rfl
  | mod rd _ _ => exact guardDivisor_form h (one rd) rfl rfl rfl
  | addi rd _ _ => exact writeAlu_form h (one rd) rfl rfl rfl
  | subi rd _ _ => exact writeAlu_form h (one rd) rfl rfl rfl
  | muli rd _ _ => exact writeAlu_form h (one rd) rfl rfl rfl
  | divi rd _ _ => exact guardDivisor_form h (one rd) rfl rfl rfl
  | modi rd _ _ => exact guardDivisor_form h (one rd) rfl rfl rfl
  | adda rd _ => exact writeAlu_form h (one rd) rfl rfl rfl
  | suba rd _ => exact writeAlu_form h (one rd) rfl rfl rfl
  | mula rd _ => exact writeAlu_form h (one rd) rfl rfl rfl
  | diva rd _ => exact guardDivisor_form h (one rd) rfl rfl rfl
  | moda rd _ => exact guardDivisor_form h (one rd) rfl rfl rfl
  | cmp ra rb => cases h; exact .compared ra rb rfl
  | and rd _ _ => exact writeAlu_form h (one rd) rfl rfl rfl
  | or rd _ _ => exact writeAlu_form h (one rd) rfl rfl rfl
  | xor rd _ _ => exact writeAlu_form h (one rd) rfl rfl rfl
  | not rd _ => exact writeAlu_form h (one rd) rfl rfl rfl
  | shl rd _ _ => exact writeAlu_form h (one rd) rfl rfl rfl
  | shr rd _ _ => exact writeAlu_form h (one rd) rfl rfl rfl
  | push rs => exact execPush_form h
  | pop rd => exact execPop_form h
  | peek rd => exact execPeek_form h
  | load rd _ => exact loadTo_form h (one rd) rfl rfl rfl
  | store _ _ => exact storeAt_form h rfl rfl rfl
  | aload rd _ _ => exact loadTo_form h (one rd) rfl rfl rfl
  | astore _ _ _ => exact storeAt_form h rfl rfl rfl
  | jmp _ => cases h; exact .jumped _ rfl rfl rfl
  | jeq _ => exact jumpIf_form h rfl rfl rfl
  | jne _ => exact jumpIf_form h rfl rfl rfl
  | jgt _ => exact jumpIf_form h rfl rfl rfl
  | jlt _ => exact jumpIf_form h rfl rfl rfl
  | jgtu _ => exact jumpIf_form h rfl rfl rfl
  | jltu _ => exact jumpIf_form h rfl rfl rfl
  | call target => exact execCall_form h
  | ret => exact execRet_form h
  | syscall id r off => exact execSyscall_form h

/-- The fault state in the terms of the claims. -/
theorem raise_eq_faultedState (s : State) (k : ErrorKind) (a : Nat) : s.raise k a = faultedState s k a := by
  simp only [State.raise, faultedState, capAddr_eq]

end Sys2Proof.Machine
end

