-- ==== Sys2Proof/Laws/Effects.lean ====
section
/-! SUPPORT. The terms of the claims, met by the shared operations: the flags of a result, the numbers of an encoding, and
what writing an ALU result, loading a word, storing a word and jumping do. -/

namespace Sys2Proof.Machine

/-! ## Numbers of an encoding (R60 to R62) -/

@[simp] theorem toNat_regByte (r : RegIdx) : (regByte r).toNat = r.val := by
  simp [regByte]; omega

@[simp] theorem map_toNat_immBytes (v : Word) : (immBytes v).map BitVec.toNat = immNats v := by
  have := v.isLt
  simp only [immBytes, immNats, List.map, BitVec.extractLsb'_toNat, Nat.shiftRight_eq_div_pow, List.cons.injEq, and_true]
  refine ⟨?_, ?_, ?_⟩ <;> first | trivial | omega

@[simp] theorem map_toNat_addrBytes (a : Addr) : (addrBytes a).map BitVec.toNat = addrNats a := by
  have := a.isLt
  simp only [addrBytes, addrNats, List.map, BitVec.extractLsb'_toNat, Nat.shiftRight_eq_div_pow, List.cons.injEq, and_true]
  omega

/-! ## Flags (R83, R84) -/

/-- N says that bit 23 is set. -/
theorem flagN_iff (r : Word) : flagN r = true ↔ 8388608 ≤ r.toNat := by
  have := r.isLt
  simp only [flagN, BitVec.getLsbD, Nat.testBit_eq_decide_div_mod_eq, decide_eq_true_eq]
  omega

theorem ovf_iff (t : Int) : ovf t = true ↔ OutOfSigned t := by
  simp [ovf, OutOfSigned]

/-- The flags of a result word are those the claims speak of. -/
theorem flagsOf_are (r : Word) {c v : Bool} {C V : Prop} (hc : c = true ↔ C) (hv : v = true ↔ V) :
    FlagsAre (flagsOf r c v) r C V :=
  ⟨by simp [flagsOf, flagZ], flagN_iff r, hc, hv⟩

/-! ## Effects -/

theorem sameRest_refl (s : State) : SameRest s s := ⟨⟨rfl, rfl⟩, ⟨rfl, rfl, rfl⟩, rfl, rfl, rfl⟩

/-- Writing an ALU result. -/
theorem writeAlu_effect {i : Instr} {s : State} {rd : RegIdx} {o : AluOut} {f : Format} {c v : Prop}
    (h : exec i s = .next (s.writeAlu rd o f)) (hf : FlagsAre o.f o.r c v) : AluEffect i s rd o.r c v f.width :=
  ⟨_, h, ⟨by rw [reg_writeAlu, if_pos rfl], fun j hj => by rw [reg_writeAlu, if_neg hj]⟩, hf, rfl, fun _ => rfl,
    ⟨rfl, rfl⟩, sameRest_refl s⟩

theorem guardDivisor_ok {s : State} {d : Word} (body : Result) (h : d.toNat ≠ 0) : s.guardDivisor d body = body :=
  guard_of_true _ _ _ (decide_eq_true h)

theorem guardDivisor_zero {s : State} {d : Word} (body : Result) (h : d.toNat = 0) :
    s.guardDivisor d body = .next (faultedState s .divisionByZero 0) := by
  rw [← raise_eq_faultedState]
  exact guard_of_false _ _ _ (by simp [h])

/-- A word read, written on bytes. -/
theorem readWord_eq_wordAt (s : State) (a : Nat) : s.readWord a = wordAt s a := by
  simp only [State.readWord, wordAt, Config.wordBytes, Memory.readBytes, leNat]
  rw [Nat.add_assoc a 1 1]
  congr 1
  omega

/-- The bytes of a word written. -/
theorem holdsWord_writeWord {s : State} {a : Nat} (v : Word) (hm : s.mem.wf = true) (h : a + 3 ≤ 65536) :
    HoldsWord (s.writeWord a v) a v := by
  have hb : a + (wordBytes v).length ≤ Config.memSize := h
  have byte : ∀ k (hk : k < 3), (s.writeWord a v).mem.read (a + k) = (wordBytes v)[k] := fun k hk =>
    read_writeBytes_inside (wordBytes v) hm hb (show k < (wordBytes v).length from hk)
  have := v.isLt
  refine ⟨?_, ?_, ?_⟩
  · show ((s.writeWord a v).mem.read (a + 0)).toNat = _
    rw [byte 0 (by omega)]
    simp [wordBytes, BitVec.extractLsb'_toNat]
  · rw [byte 1 (by omega)]
    simp [wordBytes, BitVec.extractLsb'_toNat, Nat.shiftRight_eq_div_pow]
  · rw [byte 2 (by omega)]
    simp [wordBytes, BitVec.extractLsb'_toNat, Nat.shiftRight_eq_div_pow]
    omega

/-- Loading a word inside memory. -/
theorem loadTo_ok {s : State} {rd : RegIdx} {a : Nat} {f : Format} (h : a + 3 ≤ 65536) :
    s.loadTo rd a f = .next ((s.setReg rd (wordAt s a)).advance f) := by
  rw [← readWord_eq_wordAt]
  exact guard_of_true _ _ _ ((inBounds_iff _ _).mpr h)

theorem loadTo_beyond {s : State} {rd : RegIdx} {a : Nat} {f : Format} (h : 65536 < a + 3) :
    s.loadTo rd a f = .next (faultedState s .outOfBounds a) := by
  rw [← raise_eq_faultedState]
  exact guard_of_false _ _ _ ((inBounds_eq_false_iff _ _).mpr h)

/-- Storing a word inside memory. -/
theorem storeAt_ok {s : State} {a : Nat} {v : Word} {f : Format} (h : a + 3 ≤ 65536) :
    s.storeAt a v f = .next ((s.writeWord a v).advance f) :=
  guard_of_true _ _ _ ((inBounds_iff _ _).mpr h)

theorem storeAt_beyond {s : State} {a : Nat} {v : Word} {f : Format} (h : 65536 < a + 3) :
    s.storeAt a v f = .next (faultedState s .outOfBounds a) := by
  rw [← raise_eq_faultedState]
  exact guard_of_false _ _ _ ((inBounds_eq_false_iff _ _).mpr h)

theorem zext_eq_ofNat (t : Addr) : zext t = BitVec.ofNat 24 t.toNat :=
  BitVec.eq_of_toNat_eq (by simp [zext])

/-- The service an id chooses (R137). -/
theorem execSyscall_eq (id : Word) (r : RegIdx) (off : Addr) (s : State) :
    ∀ k : Nat, id.toNat = k → execSyscall id r off s = match k with
      | 0 => s.printInt r
      | 1 => s.readInt r
      | 2 => s.printStr off
      | 3 => .next (s.haltWith (s.reg r))
      | _ => .next (s.raise .unknownId 0) := by
  intro k h
  subst h
  rfl

end Sys2Proof.Machine
end

