-- ==== Sys2Proof/Laws/Parse.lean ====
section
/-! SUPPORT. What the decoder can answer, said once: the rows of the opcode map by format, and everything the parser of a
row can answer. -/

namespace Sys2Proof

/-- What the map's row of an opcode makes of operands encodes as that opcode and those operands (R63, R64). -/
theorem encode_of_opcodeRow {op : Byte} {row : Row} (h : opcodeRow op = some row) :
    match row with
    | .n i => encode i = [op] ∧ i.format = .n
    | .r mk => ∀ d, encode (mk d) = [op, regByte d] ∧ (mk d).format = .r
    | .rr mk => ∀ d e, encode (mk d e) = [op, regByte d, regByte e] ∧ (mk d e).format = .rr
    | .rrr mk => ∀ d e f, encode (mk d e f) = [op, regByte d, regByte e, regByte f] ∧ (mk d e f).format = .rrr
    | .ri mk => ∀ d v, encode (mk d v) = op :: regByte d :: immBytes v ∧ (mk d v).format = .ri
    | .rri mk => ∀ d e v, encode (mk d e v) = op :: regByte d :: regByte e :: immBytes v ∧ (mk d e v).format = .rri
    | .a mk => ∀ t, encode (mk t) = op :: addrBytes t ∧ (mk t).format = .a
    | .rar mk => ∀ d t e, encode (mk d t e) = op :: regByte d :: (addrBytes t ++ [regByte e]) ∧ (mk d t e).format = .rar
    | .arr mk => ∀ t d e, encode (mk t d e) = op :: (addrBytes t ++ [regByte d, regByte e]) ∧ (mk t d e).format = .arr
    | .ira mk => ∀ v d t, encode (mk v d t) = op :: (immBytes v ++ (regByte d :: addrBytes t)) ∧
        (mk v d t).format = .ira := by
  unfold opcodeRow at h
  split at h <;> first
    | (rename_i e
       have e' : op = BitVec.ofNat 8 op.toNat := by simp
       rw [e] at e'
       subst e'
       obtain rfl := Option.some.inj h
       first
       | exact ⟨rfl, rfl⟩
       | exact fun _ => ⟨rfl, rfl⟩
       | exact fun _ _ => ⟨rfl, rfl⟩
       | exact fun _ _ _ => ⟨rfl, rfl⟩)
    | cases h

/-- A register byte is bad, or it is the byte of a register. -/
theorem regOf_cases (b : Byte) : (regByteOk b = false ∧ regOf b = none) ∨
    (regByteOk b = true ∧ ∃ r, regOf b = some r ∧ regByte r = b) := by
  have iff := regOf_eq_none_iff b
  cases hr : regOf b with
  | none => exact .inl ⟨iff.mp hr, rfl⟩
  | some r =>
    refine .inr ⟨?_, r, rfl, regByte_of_regOf hr⟩
    rw [← Bool.not_eq_false, ← iff, hr]
    exact Option.some_ne_none r

/-- What the parser of a row answers for the bytes after an opcode: too few bytes, or a bad register byte, or an
instruction of the row's format whose encoding is the opcode and the bytes read (R63, R66, R67). -/
def ParseForm (op : Byte) (row : Row) (bs : List Byte) : Prop :=
  (bs.length < row.format.width - 1 ∧ row.parse bs = .error .truncated) ∨
  (row.format.width - 1 ≤ bs.length ∧ operandsOk row.format.operands (bs.take (row.format.width - 1)) = false ∧
    row.parse bs = .error .malformedOperand) ∨
  (row.format.width - 1 ≤ bs.length ∧ operandsOk row.format.operands (bs.take (row.format.width - 1)) = true ∧
    ∃ i, encode i = op :: bs.take (row.format.width - 1) ∧ i.format = row.format ∧
      row.parse bs = .ok (i, bs.drop (row.format.width - 1)))

theorem parse_r {op : Byte} {mk : RegIdx → Instr}
    (hm : ∀ d, encode (mk d) = [op, regByte d] ∧ (mk d).format = .r) (bs : List Byte) :
    ParseForm op (.r mk) bs := by
  match bs with
  | [] => exact .inl ⟨by simp [Row.format, Format.width], rfl⟩
  | bd :: bs =>
    rcases regOf_cases bd with ⟨okd, ofd⟩ | ⟨okd, d, ofd, eqd⟩
    · exact .inr (.inl ⟨by simp [Row.format, Format.width], by simp [Row.format, Format.width, Format.operands, operandsOk, okd],
        by simp [Row.parse, ofd, orMalformed]⟩)
    exact .inr (.inr ⟨by simp [Row.format, Format.width], by simp [Row.format, Format.width, Format.operands, operandsOk, okd], mk d,
      by simp [Row.format, Format.width, (hm _).1, eqd], (hm _).2,
      by simp [Row.parse, Row.format, Format.width, ofd, orMalformed]⟩)

theorem parse_rr {op : Byte} {mk : RegIdx → RegIdx → Instr}
    (hm : ∀ d e, encode (mk d e) = [op, regByte d, regByte e] ∧ (mk d e).format = .rr) (bs : List Byte) :
    ParseForm op (.rr mk) bs := by
  match bs with
  | [] => exact .inl ⟨by simp [Row.format, Format.width], rfl⟩
  | [_] => exact .inl ⟨by simp [Row.format, Format.width], rfl⟩
  | bd :: be :: bs =>
    rcases regOf_cases bd with ⟨okd, ofd⟩ | ⟨okd, d, ofd, eqd⟩
    · exact .inr (.inl ⟨by simp [Row.format, Format.width], by simp [Row.format, Format.width, Format.operands, operandsOk, okd],
        by simp [Row.parse, ofd, orMalformed]⟩)
    rcases regOf_cases be with ⟨oke, ofe⟩ | ⟨oke, e, ofe, eqe⟩
    · exact .inr (.inl ⟨by simp [Row.format, Format.width], by simp [Row.format, Format.width, Format.operands, operandsOk, okd, oke],
        by simp [Row.parse, ofd, ofe, orMalformed]⟩)
    exact .inr (.inr ⟨by simp [Row.format, Format.width], by simp [Row.format, Format.width, Format.operands, operandsOk, okd, oke], mk d e,
      by simp [Row.format, Format.width, (hm _ _).1, eqd, eqe], (hm _ _).2,
      by simp [Row.parse, Row.format, Format.width, ofd, ofe, orMalformed]⟩)

theorem parse_rrr {op : Byte} {mk : RegIdx → RegIdx → RegIdx → Instr}
    (hm : ∀ d e f, encode (mk d e f) = [op, regByte d, regByte e, regByte f] ∧ (mk d e f).format = .rrr) (bs : List Byte) :
    ParseForm op (.rrr mk) bs := by
  match bs with
  | [] => exact .inl ⟨by simp [Row.format, Format.width], rfl⟩
  | [_] => exact .inl ⟨by simp [Row.format, Format.width], rfl⟩
  | [_, _] => exact .inl ⟨by simp [Row.format, Format.width], rfl⟩
  | bd :: be :: bf :: bs =>
    rcases regOf_cases bd with ⟨okd, ofd⟩ | ⟨okd, d, ofd, eqd⟩
    · exact .inr (.inl ⟨by simp [Row.format, Format.width], by simp [Row.format, Format.width, Format.operands, operandsOk, okd],
        by simp [Row.parse, ofd, orMalformed]⟩)
    rcases regOf_cases be with ⟨oke, ofe⟩ | ⟨oke, e, ofe, eqe⟩
    · exact .inr (.inl ⟨by simp [Row.format, Format.width], by simp [Row.format, Format.width, Format.operands, operandsOk, okd, oke],
        by simp [Row.parse, ofd, ofe, orMalformed]⟩)
    rcases regOf_cases bf with ⟨okf, off⟩ | ⟨okf, f, off, eqf⟩
    · exact .inr (.inl ⟨by simp [Row.format, Format.width], by simp [Row.format, Format.width, Format.operands, operandsOk, okd, oke, okf],
        by simp [Row.parse, ofd, ofe, off, orMalformed]⟩)
    exact .inr (.inr ⟨by simp [Row.format, Format.width], by simp [Row.format, Format.width, Format.operands, operandsOk, okd, oke, okf], mk d e f,
      by simp [Row.format, Format.width, (hm _ _ _).1, eqd, eqe, eqf], (hm _ _ _).2,
      by simp [Row.parse, Row.format, Format.width, ofd, ofe, off, orMalformed]⟩)

theorem parse_ri {op : Byte} {mk : RegIdx → Word → Instr}
    (hm : ∀ d v, encode (mk d v) = op :: regByte d :: immBytes v ∧ (mk d v).format = .ri) (bs : List Byte) :
    ParseForm op (.ri mk) bs := by
  match bs with
  | [] => exact .inl ⟨by simp [Row.format, Format.width], rfl⟩
  | [_] => exact .inl ⟨by simp [Row.format, Format.width], rfl⟩
  | [_, _] => exact .inl ⟨by simp [Row.format, Format.width], rfl⟩
  | [_, _, _] => exact .inl ⟨by simp [Row.format, Format.width], rfl⟩
  | bd :: i0 :: i1 :: i2 :: bs =>
    rcases regOf_cases bd with ⟨okd, ofd⟩ | ⟨okd, d, ofd, eqd⟩
    · exact .inr (.inl ⟨by simp [Row.format, Format.width], by simp [Row.format, Format.width, Format.operands, operandsOk, okd],
        by simp [Row.parse, ofd, orMalformed]⟩)
    exact .inr (.inr ⟨by simp [Row.format, Format.width], by simp [Row.format, Format.width, Format.operands, operandsOk, okd], mk d (immOf i0 i1 i2),
      by simp [Row.format, Format.width, (hm _ _).1, eqd, immBytes_immOf], (hm _ _).2,
      by simp [Row.parse, Row.format, Format.width, ofd, orMalformed]⟩)

theorem parse_rri {op : Byte} {mk : RegIdx → RegIdx → Word → Instr}
    (hm : ∀ d e v, encode (mk d e v) = op :: regByte d :: regByte e :: immBytes v ∧ (mk d e v).format = .rri) (bs : List Byte) :
    ParseForm op (.rri mk) bs := by
  match bs with
  | [] => exact .inl ⟨by simp [Row.format, Format.width], rfl⟩
  | [_] => exact .inl ⟨by simp [Row.format, Format.width], rfl⟩
  | [_, _] => exact .inl ⟨by simp [Row.format, Format.width], rfl⟩
  | [_, _, _] => exact .inl ⟨by simp [Row.format, Format.width], rfl⟩
  | [_, _, _, _] => exact .inl ⟨by simp [Row.format, Format.width], rfl⟩
  | bd :: be :: i0 :: i1 :: i2 :: bs =>
    rcases regOf_cases bd with ⟨okd, ofd⟩ | ⟨okd, d, ofd, eqd⟩
    · exact .inr (.inl ⟨by simp [Row.format, Format.width], by simp [Row.format, Format.width, Format.operands, operandsOk, okd],
        by simp [Row.parse, ofd, orMalformed]⟩)
    rcases regOf_cases be with ⟨oke, ofe⟩ | ⟨oke, e, ofe, eqe⟩
    · exact .inr (.inl ⟨by simp [Row.format, Format.width], by simp [Row.format, Format.width, Format.operands, operandsOk, okd, oke],
        by simp [Row.parse, ofd, ofe, orMalformed]⟩)
    exact .inr (.inr ⟨by simp [Row.format, Format.width], by simp [Row.format, Format.width, Format.operands, operandsOk, okd, oke], mk d e (immOf i0 i1 i2),
      by simp [Row.format, Format.width, (hm _ _ _).1, eqd, eqe, immBytes_immOf], (hm _ _ _).2,
      by simp [Row.parse, Row.format, Format.width, ofd, ofe, orMalformed]⟩)

theorem parse_a {op : Byte} {mk : Addr → Instr}
    (hm : ∀ t, encode (mk t) = op :: addrBytes t ∧ (mk t).format = .a) (bs : List Byte) :
    ParseForm op (.a mk) bs := by
  match bs with
  | [] => exact .inl ⟨by simp [Row.format, Format.width], rfl⟩
  | [_] => exact .inl ⟨by simp [Row.format, Format.width], rfl⟩
  | a0 :: a1 :: bs =>
    exact .inr (.inr ⟨by simp [Row.format, Format.width], by simp [Row.format, Format.width, Format.operands, operandsOk], mk (addrOf a0 a1),
      by simp [Row.format, Format.width, (hm _).1, addrBytes_addrOf], (hm _).2,
      by simp [Row.parse, Row.format, Format.width]⟩)

theorem parse_rar {op : Byte} {mk : RegIdx → Addr → RegIdx → Instr}
    (hm : ∀ d t e, encode (mk d t e) = op :: regByte d :: (addrBytes t ++ [regByte e]) ∧ (mk d t e).format = .rar) (bs : List Byte) :
    ParseForm op (.rar mk) bs := by
  match bs with
  | [] => exact .inl ⟨by simp [Row.format, Format.width], rfl⟩
  | [_] => exact .inl ⟨by simp [Row.format, Format.width], rfl⟩
  | [_, _] => exact .inl ⟨by simp [Row.format, Format.width], rfl⟩
  | [_, _, _] => exact .inl ⟨by simp [Row.format, Format.width], rfl⟩
  | bd :: a0 :: a1 :: be :: bs =>
    rcases regOf_cases bd with ⟨okd, ofd⟩ | ⟨okd, d, ofd, eqd⟩
    · exact .inr (.inl ⟨by simp [Row.format, Format.width], by simp [Row.format, Format.width, Format.operands, operandsOk, okd],
        by simp [Row.parse, ofd, orMalformed]⟩)
    rcases regOf_cases be with ⟨oke, ofe⟩ | ⟨oke, e, ofe, eqe⟩
    · exact .inr (.inl ⟨by simp [Row.format, Format.width], by simp [Row.format, Format.width, Format.operands, operandsOk, okd, oke],
        by simp [Row.parse, ofd, ofe, orMalformed]⟩)
    exact .inr (.inr ⟨by simp [Row.format, Format.width], by simp [Row.format, Format.width, Format.operands, operandsOk, okd, oke], mk d (addrOf a0 a1) e,
      by simp [Row.format, Format.width, (hm _ _ _).1, eqd, eqe, addrBytes_addrOf], (hm _ _ _).2,
      by simp [Row.parse, Row.format, Format.width, ofd, ofe, orMalformed]⟩)

theorem parse_arr {op : Byte} {mk : Addr → RegIdx → RegIdx → Instr}
    (hm : ∀ t d e, encode (mk t d e) = op :: (addrBytes t ++ [regByte d, regByte e]) ∧ (mk t d e).format = .arr) (bs : List Byte) :
    ParseForm op (.arr mk) bs := by
  match bs with
  | [] => exact .inl ⟨by simp [Row.format, Format.width], rfl⟩
  | [_] => exact .inl ⟨by simp [Row.format, Format.width], rfl⟩
  | [_, _] => exact .inl ⟨by simp [Row.format, Format.width], rfl⟩
  | [_, _, _] => exact .inl ⟨by simp [Row.format, Format.width], rfl⟩
  | a0 :: a1 :: bd :: be :: bs =>
    rcases regOf_cases bd with ⟨okd, ofd⟩ | ⟨okd, d, ofd, eqd⟩
    · exact .inr (.inl ⟨by simp [Row.format, Format.width], by simp [Row.format, Format.width, Format.operands, operandsOk, okd],
        by simp [Row.parse, ofd, orMalformed]⟩)
    rcases regOf_cases be with ⟨oke, ofe⟩ | ⟨oke, e, ofe, eqe⟩
    · exact .inr (.inl ⟨by simp [Row.format, Format.width], by simp [Row.format, Format.width, Format.operands, operandsOk, okd, oke],
        by simp [Row.parse, ofd, ofe, orMalformed]⟩)
    exact .inr (.inr ⟨by simp [Row.format, Format.width], by simp [Row.format, Format.width, Format.operands, operandsOk, okd, oke], mk (addrOf a0 a1) d e,
      by simp [Row.format, Format.width, (hm _ _ _).1, eqd, eqe, addrBytes_addrOf], (hm _ _ _).2,
      by simp [Row.parse, Row.format, Format.width, ofd, ofe, orMalformed]⟩)

theorem parse_ira {op : Byte} {mk : Word → RegIdx → Addr → Instr}
    (hm : ∀ v d t, encode (mk v d t) = op :: (immBytes v ++ (regByte d :: addrBytes t)) ∧ (mk v d t).format = .ira) (bs : List Byte) :
    ParseForm op (.ira mk) bs := by
  match bs with
  | [] => exact .inl ⟨by simp [Row.format, Format.width], rfl⟩
  | [_] => exact .inl ⟨by simp [Row.format, Format.width], rfl⟩
  | [_, _] => exact .inl ⟨by simp [Row.format, Format.width], rfl⟩
  | [_, _, _] => exact .inl ⟨by simp [Row.format, Format.width], rfl⟩
  | [_, _, _, _] => exact .inl ⟨by simp [Row.format, Format.width], rfl⟩
  | [_, _, _, _, _] => exact .inl ⟨by simp [Row.format, Format.width], rfl⟩
  | i0 :: i1 :: i2 :: bd :: a0 :: a1 :: bs =>
    rcases regOf_cases bd with ⟨okd, ofd⟩ | ⟨okd, d, ofd, eqd⟩
    · exact .inr (.inl ⟨by simp [Row.format, Format.width], by simp [Row.format, Format.width, Format.operands, operandsOk, okd],
        by simp [Row.parse, ofd, orMalformed]⟩)
    exact .inr (.inr ⟨by simp [Row.format, Format.width], by simp [Row.format, Format.width, Format.operands, operandsOk, okd], mk (immOf i0 i1 i2) d (addrOf a0 a1),
      by simp [Row.format, Format.width, (hm _ _ _).1, eqd, immBytes_immOf, addrBytes_addrOf], (hm _ _ _).2,
      by simp [Row.parse, Row.format, Format.width, ofd, orMalformed]⟩)

/-- Everything the parser of an opcode's row can answer. -/
theorem parse_form {op : Byte} {row : Row} (h : opcodeRow op = some row) (bs : List Byte) : ParseForm op row bs := by
  have hm := encode_of_opcodeRow h
  cases row with
  | n i =>
    exact .inr (.inr ⟨Nat.zero_le _, rfl, i, by simpa [Row.format, Format.width] using hm.1, hm.2, rfl⟩)
  | r mk => exact parse_r hm bs
  | rr mk => exact parse_rr hm bs
  | rrr mk => exact parse_rrr hm bs
  | ri mk => exact parse_ri hm bs
  | rri mk => exact parse_rri hm bs
  | a mk => exact parse_a hm bs
  | rar mk => exact parse_rar hm bs
  | arr mk => exact parse_arr hm bs
  | ira mk => exact parse_ira hm bs

end Sys2Proof
end

