-- ==== Sys2Proof/Laws/PerInstr.lean ====
section
/-! SUPPORT. Laws per instruction: the shape of every instruction's encoding, one lemma per constructor. -/

namespace Sys2Proof.Laws

/-- The byte of a register is a valid register byte (R60). -/
theorem regByteOk_regByte (r : RegIdx) : regByteOk (regByte r) = true := by
  have h : regOf (regByte r) ≠ none := by rw [regOf_regByte]; exact Option.some_ne_none r
  exact (Bool.eq_false_or_eq_true _).resolve_right fun hf => h ((regOf_eq_none_iff _).mpr hf)

/-! The operand bytes of each format fit it (R63). -/

theorem fits_r (d : RegIdx) : operandsOk Format.r.operands [regByte d] = true := by
  simp [Format.operands, operandsOk, regByteOk_regByte]

theorem fits_rr (d e : RegIdx) : operandsOk Format.rr.operands [regByte d, regByte e] = true := by
  simp [Format.operands, operandsOk, regByteOk_regByte]

theorem fits_rrr (d e f : RegIdx) : operandsOk Format.rrr.operands [regByte d, regByte e, regByte f] = true := by
  simp [Format.operands, operandsOk, regByteOk_regByte]

theorem fits_ri (d : RegIdx) (v : Word) : operandsOk Format.ri.operands (regByte d :: immBytes v) = true := by
  simp [Format.operands, operandsOk, regByteOk_regByte, immBytes]

theorem fits_rri (d e : RegIdx) (v : Word) :
    operandsOk Format.rri.operands (regByte d :: regByte e :: immBytes v) = true := by
  simp [Format.operands, operandsOk, regByteOk_regByte, immBytes]

theorem fits_a (t : Addr) : operandsOk Format.a.operands (addrBytes t) = true := rfl

theorem fits_rar (d : RegIdx) (t : Addr) (e : RegIdx) :
    operandsOk Format.rar.operands (regByte d :: (addrBytes t ++ [regByte e])) = true := by
  simp [Format.operands, operandsOk, regByteOk_regByte, addrBytes]

theorem fits_arr (t : Addr) (d e : RegIdx) :
    operandsOk Format.arr.operands (addrBytes t ++ [regByte d, regByte e]) = true := by
  simp [Format.operands, operandsOk, regByteOk_regByte, addrBytes]

theorem fits_ira (v : Word) (d : RegIdx) (t : Addr) :
    operandsOk Format.ira.operands (immBytes v ++ (regByte d :: addrBytes t)) = true := by
  simp [Format.operands, operandsOk, regByteOk_regByte, immBytes, addrBytes]

namespace EncodingShape

/-- An instruction's encoding is one opcode byte of the map, of the instruction's own format, and operand bytes that fit
that format, as many bytes as the instruction's width in all (R59, R63, R65). -/
def Statement (i : Instr) : Prop :=
  ∃ op row, opcodeRow op = some row ∧ row.format = i.format ∧ ∃ bs, encode i = op :: bs ∧
    operandsOk i.format.operands bs = true ∧ (encode i).length = i.width

theorem halt : Statement (.halt) :=
  ⟨0x01, .n .halt, rfl, rfl, _, rfl, rfl, rfl⟩

theorem loadi (rd : RegIdx) (imm : Word) : Statement (.loadi rd imm) :=
  ⟨0x02, .ri .loadi, rfl, rfl, _, rfl, fits_ri rd imm, rfl⟩

theorem mov (rd rs : RegIdx) : Statement (.mov rd rs) :=
  ⟨0x03, .rr .mov, rfl, rfl, _, rfl, fits_rr rd rs, rfl⟩

theorem swap (ra rb : RegIdx) : Statement (.swap ra rb) :=
  ⟨0x04, .rr .swap, rfl, rfl, _, rfl, fits_rr ra rb, rfl⟩

theorem add (rd ra rb : RegIdx) : Statement (.add rd ra rb) :=
  ⟨0x10, .rrr .add, rfl, rfl, _, rfl, fits_rrr rd ra rb, rfl⟩

theorem sub (rd ra rb : RegIdx) : Statement (.sub rd ra rb) :=
  ⟨0x11, .rrr .sub, rfl, rfl, _, rfl, fits_rrr rd ra rb, rfl⟩

theorem mul (rd ra rb : RegIdx) : Statement (.mul rd ra rb) :=
  ⟨0x12, .rrr .mul, rfl, rfl, _, rfl, fits_rrr rd ra rb, rfl⟩

theorem div (rd ra rb : RegIdx) : Statement (.div rd ra rb) :=
  ⟨0x13, .rrr .div, rfl, rfl, _, rfl, fits_rrr rd ra rb, rfl⟩

theorem mod (rd ra rb : RegIdx) : Statement (.mod rd ra rb) :=
  ⟨0x14, .rrr .mod, rfl, rfl, _, rfl, fits_rrr rd ra rb, rfl⟩

theorem addi (rd ra : RegIdx) (imm : Word) : Statement (.addi rd ra imm) :=
  ⟨0x18, .rri .addi, rfl, rfl, _, rfl, fits_rri rd ra imm, rfl⟩

theorem subi (rd ra : RegIdx) (imm : Word) : Statement (.subi rd ra imm) :=
  ⟨0x19, .rri .subi, rfl, rfl, _, rfl, fits_rri rd ra imm, rfl⟩

theorem muli (rd ra : RegIdx) (imm : Word) : Statement (.muli rd ra imm) :=
  ⟨0x1A, .rri .muli, rfl, rfl, _, rfl, fits_rri rd ra imm, rfl⟩

theorem divi (rd ra : RegIdx) (imm : Word) : Statement (.divi rd ra imm) :=
  ⟨0x1B, .rri .divi, rfl, rfl, _, rfl, fits_rri rd ra imm, rfl⟩

theorem modi (rd ra : RegIdx) (imm : Word) : Statement (.modi rd ra imm) :=
  ⟨0x1C, .rri .modi, rfl, rfl, _, rfl, fits_rri rd ra imm, rfl⟩

theorem adda (rd rs : RegIdx) : Statement (.adda rd rs) :=
  ⟨0x20, .rr .adda, rfl, rfl, _, rfl, fits_rr rd rs, rfl⟩

theorem suba (rd rs : RegIdx) : Statement (.suba rd rs) :=
  ⟨0x21, .rr .suba, rfl, rfl, _, rfl, fits_rr rd rs, rfl⟩

theorem mula (rd rs : RegIdx) : Statement (.mula rd rs) :=
  ⟨0x22, .rr .mula, rfl, rfl, _, rfl, fits_rr rd rs, rfl⟩

theorem diva (rd rs : RegIdx) : Statement (.diva rd rs) :=
  ⟨0x23, .rr .diva, rfl, rfl, _, rfl, fits_rr rd rs, rfl⟩

theorem moda (rd rs : RegIdx) : Statement (.moda rd rs) :=
  ⟨0x24, .rr .moda, rfl, rfl, _, rfl, fits_rr rd rs, rfl⟩

theorem cmp (ra rb : RegIdx) : Statement (.cmp ra rb) :=
  ⟨0x28, .rr .cmp, rfl, rfl, _, rfl, fits_rr ra rb, rfl⟩

theorem and (rd ra rb : RegIdx) : Statement (.and rd ra rb) :=
  ⟨0x30, .rrr .and, rfl, rfl, _, rfl, fits_rrr rd ra rb, rfl⟩

theorem or (rd ra rb : RegIdx) : Statement (.or rd ra rb) :=
  ⟨0x31, .rrr .or, rfl, rfl, _, rfl, fits_rrr rd ra rb, rfl⟩

theorem xor (rd ra rb : RegIdx) : Statement (.xor rd ra rb) :=
  ⟨0x32, .rrr .xor, rfl, rfl, _, rfl, fits_rrr rd ra rb, rfl⟩

theorem not (rd rs : RegIdx) : Statement (.not rd rs) :=
  ⟨0x33, .rr .not, rfl, rfl, _, rfl, fits_rr rd rs, rfl⟩

theorem shl (rd ra rb : RegIdx) : Statement (.shl rd ra rb) :=
  ⟨0x34, .rrr .shl, rfl, rfl, _, rfl, fits_rrr rd ra rb, rfl⟩

theorem shr (rd ra rb : RegIdx) : Statement (.shr rd ra rb) :=
  ⟨0x35, .rrr .shr, rfl, rfl, _, rfl, fits_rrr rd ra rb, rfl⟩

theorem push (rs : RegIdx) : Statement (.push rs) :=
  ⟨0x40, .r .push, rfl, rfl, _, rfl, fits_r rs, rfl⟩

theorem pop (rd : RegIdx) : Statement (.pop rd) :=
  ⟨0x41, .r .pop, rfl, rfl, _, rfl, fits_r rd, rfl⟩

theorem peek (rd : RegIdx) : Statement (.peek rd) :=
  ⟨0x42, .r .peek, rfl, rfl, _, rfl, fits_r rd, rfl⟩

theorem load (rd ra : RegIdx) : Statement (.load rd ra) :=
  ⟨0x48, .rr .load, rfl, rfl, _, rfl, fits_rr rd ra, rfl⟩

theorem store (rs ra : RegIdx) : Statement (.store rs ra) :=
  ⟨0x49, .rr .store, rfl, rfl, _, rfl, fits_rr rs ra, rfl⟩

theorem aload (rd : RegIdx) (base : Addr) (ri : RegIdx) : Statement (.aload rd base ri) :=
  ⟨0x4A, .rar .aload, rfl, rfl, _, rfl, fits_rar rd base ri, rfl⟩

theorem astore (base : Addr) (ri rs : RegIdx) : Statement (.astore base ri rs) :=
  ⟨0x4B, .arr .astore, rfl, rfl, _, rfl, fits_arr base ri rs, rfl⟩

theorem jmp (target : Addr) : Statement (.jmp target) :=
  ⟨0x50, .a .jmp, rfl, rfl, _, rfl, fits_a target, rfl⟩

theorem jeq (target : Addr) : Statement (.jeq target) :=
  ⟨0x51, .a .jeq, rfl, rfl, _, rfl, fits_a target, rfl⟩

theorem jne (target : Addr) : Statement (.jne target) :=
  ⟨0x52, .a .jne, rfl, rfl, _, rfl, fits_a target, rfl⟩

theorem jgt (target : Addr) : Statement (.jgt target) :=
  ⟨0x53, .a .jgt, rfl, rfl, _, rfl, fits_a target, rfl⟩

theorem jlt (target : Addr) : Statement (.jlt target) :=
  ⟨0x54, .a .jlt, rfl, rfl, _, rfl, fits_a target, rfl⟩

theorem jgtu (target : Addr) : Statement (.jgtu target) :=
  ⟨0x55, .a .jgtu, rfl, rfl, _, rfl, fits_a target, rfl⟩

theorem jltu (target : Addr) : Statement (.jltu target) :=
  ⟨0x56, .a .jltu, rfl, rfl, _, rfl, fits_a target, rfl⟩

theorem call (target : Addr) : Statement (.call target) :=
  ⟨0x58, .a .call, rfl, rfl, _, rfl, fits_a target, rfl⟩

theorem ret : Statement (.ret) :=
  ⟨0x59, .n .ret, rfl, rfl, _, rfl, rfl, rfl⟩

theorem syscall (id : Word) (r : RegIdx) (off : Addr) : Statement (.syscall id r off) :=
  ⟨0x60, .ira .syscall, rfl, rfl, _, rfl, fits_ira id r off, rfl⟩

end EncodingShape

end Sys2Proof.Laws
end

