-- ==== Sys2Proof/Tests/Slice0.lean ====
section
/-! SUPPORT. The model's own tests: ill-formed operand bytes, every instruction's bytes decoded, one step of every
instruction on a small state, and for every statement with hypotheses a case that meets them. The expected results are
those of spec/95_test_vectors.md (its vector is named beside each), or are worked out by hand from the rule named. -/

namespace Sys2Proof.Tests

open Sys2Proof.Machine

/-! ## Helpers -/

/-- The reset state with some registers set. -/
def regs (l : List (RegIdx × Word)) : State := l.foldl (fun s p => s.setReg p.1 p.2) State.reset

/-- The state with bytes placed at an address. -/
def put (s : State) (a : Nat) (bs : List Byte) : State := { s with mem := s.mem.writeBytes a bs }

/-- One step of the machine with the bytes of an instruction placed at pc. -/
def run (s : State) (bs : List Byte) : Result := step (put s s.pc.toNat bs)

/-- What is seen of the next state, if there is one. -/
def see {α : Type} (f : State → α) : Result → Option α
  | .next t => some (f t)
  | _ => none

/-- ZNCV, as the vectors write the flags. -/
def zncv (s : State) : List Nat := [s.flags.z, s.flags.n, s.flags.c, s.flags.v].map Bool.toNat

/-- A register as a number, and the flags. -/
def regFlags (r : RegIdx) (s : State) : Nat × List Nat := ((s.reg r).toNat, zncv s)

/-- Run state, fault record as (code, pc, addr), and pc. -/
def faultOf (s : State) : Option (Nat × Nat × Nat) × Nat :=
  (s.fault.map fun f => (f.kind.code, f.pc.toNat, f.addr.toNat), s.pc.toNat)

/-! ## Ill-formed operand bytes are refused (R60 to R63, R66, R67) -/

theorem test_register_byte_15_ok : regByteOk 15 = true := by decide
theorem test_register_byte_16_refused : regByteOk 16 = false := by decide
theorem test_operands_missing_refused : operandsOk [.reg] [] = false := by decide
theorem test_operands_too_many_refused : operandsOk [.reg] [0, 0] = false := by decide
theorem test_operands_short_immediate_refused : operandsOk [.imm] [0, 0] = false := by decide
theorem test_operands_short_address_refused : operandsOk [.addr] [0] = false := by decide
theorem test_operands_bad_first_register_refused : operandsOk [.reg, .reg, .reg] [16, 0, 0] = false := by decide
theorem test_operands_bad_middle_register_refused : operandsOk [.reg, .reg, .reg] [0, 16, 0] = false := by decide
theorem test_operands_bad_last_register_refused : operandsOk [.addr, .reg, .reg] [255, 255, 15, 255] = false := by decide
theorem test_operands_bad_register_after_immediate_refused :
    operandsOk [.imm, .reg, .addr] [255, 255, 255, 16, 0, 0] = false := by decide
theorem test_operands_good : operandsOk [.imm, .reg, .addr] [255, 255, 255, 15, 255, 255] = true := by decide

/-! The decoder refuses by name (vectors DC1, DC5, DC10 to DC12). -/

theorem test_decode_empty : decode [] = .error .truncated := by decide
theorem test_decode_zero : decode [0x00] = .error .invalidOpcode := by decide
theorem test_decode_gap : decode [0x57] = .error .invalidOpcode := by decide
theorem test_decode_short : decode [0x02] = .error .truncated := by decide
theorem test_decode_short_before_bad_register : decode [0x02, 0x10] = .error .truncated := by decide
theorem test_decode_bad_register : decode [0x02, 0x10, 0x00, 0x00, 0x00] = .error .malformedOperand := by decide
theorem test_decode_bad_third_register : decode [0x10, 0x00, 0x01, 0xFF] = .error .malformedOperand := by decide
theorem test_decode_bad_syscall_register :
    decode [0x60, 0x07, 0x00, 0x00, 0x10, 0x00, 0x00] = .error .malformedOperand := by decide

/-! ## Every instruction's bytes, written out from its format and opcode (R63, R64) -/

theorem test_decode_HALT : decode ([0x01] ++ [0xEE]) = .ok (.halt, [0xEE]) := by decide
theorem test_decode_LOADI : decode ([0x02, 0x03, 0x56, 0x34, 0x12] ++ [0xEE]) = .ok (.loadi 3 0x123456, [0xEE]) := by decide
theorem test_encode_LOADI : encode (.loadi 3 0x123456) = [0x02, 0x03, 0x56, 0x34, 0x12] := by decide
theorem test_decode_MOV : decode ([0x03, 0x00, 0x01] ++ [0xEE]) = .ok (.mov 0 1, [0xEE]) := by decide
theorem test_decode_SWAP : decode ([0x04, 0x02, 0x03] ++ [0xEE]) = .ok (.swap 2 3, [0xEE]) := by decide
theorem test_decode_ADD : decode ([0x10, 0x02, 0x00, 0x01] ++ [0xEE]) = .ok (.add 2 0 1, [0xEE]) := by decide
theorem test_decode_SUB : decode ([0x11, 0x03, 0x04, 0x05] ++ [0xEE]) = .ok (.sub 3 4 5, [0xEE]) := by decide
theorem test_decode_MUL : decode ([0x12, 0x0F, 0x0E, 0x0D] ++ [0xEE]) = .ok (.mul 15 14 13, [0xEE]) := by decide
theorem test_decode_DIV : decode ([0x13, 0x02, 0x00, 0x01] ++ [0xEE]) = .ok (.div 2 0 1, [0xEE]) := by decide
theorem test_decode_MOD : decode ([0x14, 0x06, 0x07, 0x08] ++ [0xEE]) = .ok (.mod 6 7 8, [0xEE]) := by decide
theorem test_decode_ADDI : decode ([0x18, 0x00, 0x01, 0x01, 0x00, 0x80] ++ [0xEE]) = .ok (.addi 0 1 0x800001, [0xEE]) := by decide
theorem test_decode_SUBI : decode ([0x19, 0x01, 0x02, 0xFF, 0x00, 0x80] ++ [0xEE]) = .ok (.subi 1 2 0x8000FF, [0xEE]) := by decide
theorem test_decode_MULI : decode ([0x1A, 0x03, 0x04, 0x01, 0x02, 0x03] ++ [0xEE]) = .ok (.muli 3 4 0x030201, [0xEE]) := by decide
theorem test_decode_DIVI : decode ([0x1B, 0x05, 0x06, 0xFF, 0xFF, 0xFF] ++ [0xEE]) = .ok (.divi 5 6 0xFFFFFF, [0xEE]) := by decide
theorem test_decode_MODI : decode ([0x1C, 0x07, 0x08, 0x03, 0x00, 0x00] ++ [0xEE]) = .ok (.modi 7 8 3, [0xEE]) := by decide
theorem test_decode_ADDA : decode ([0x20, 0x00, 0x01] ++ [0xEE]) = .ok (.adda 0 1, [0xEE]) := by decide
theorem test_decode_SUBA : decode ([0x21, 0x02, 0x03] ++ [0xEE]) = .ok (.suba 2 3, [0xEE]) := by decide
theorem test_decode_MULA : decode ([0x22, 0x04, 0x05] ++ [0xEE]) = .ok (.mula 4 5, [0xEE]) := by decide
theorem test_decode_DIVA : decode ([0x23, 0x06, 0x07] ++ [0xEE]) = .ok (.diva 6 7, [0xEE]) := by decide
theorem test_decode_MODA : decode ([0x24, 0x08, 0x09] ++ [0xEE]) = .ok (.moda 8 9, [0xEE]) := by decide
theorem test_decode_CMP : decode ([0x28, 0x0A, 0x0B] ++ [0xEE]) = .ok (.cmp 10 11, [0xEE]) := by decide
theorem test_decode_AND : decode ([0x30, 0x02, 0x00, 0x01] ++ [0xEE]) = .ok (.and 2 0 1, [0xEE]) := by decide
theorem test_decode_OR : decode ([0x31, 0x03, 0x04, 0x05] ++ [0xEE]) = .ok (.or 3 4 5, [0xEE]) := by decide
theorem test_decode_XOR : decode ([0x32, 0x06, 0x07, 0x08] ++ [0xEE]) = .ok (.xor 6 7 8, [0xEE]) := by decide
theorem test_decode_NOT : decode ([0x33, 0x00, 0x01] ++ [0xEE]) = .ok (.not 0 1, [0xEE]) := by decide
theorem test_decode_SHL : decode ([0x34, 0x09, 0x0A, 0x0B] ++ [0xEE]) = .ok (.shl 9 10 11, [0xEE]) := by decide
theorem test_decode_SHR : decode ([0x35, 0x0C, 0x0D, 0x0E] ++ [0xEE]) = .ok (.shr 12 13 14, [0xEE]) := by decide
theorem test_decode_PUSH : decode ([0x40, 0x05] ++ [0xEE]) = .ok (.push 5, [0xEE]) := by decide
theorem test_decode_POP : decode ([0x41, 0x07] ++ [0xEE]) = .ok (.pop 7, [0xEE]) := by decide
theorem test_decode_PEEK : decode ([0x42, 0x0F] ++ [0xEE]) = .ok (.peek 15, [0xEE]) := by decide
theorem test_decode_LOAD : decode ([0x48, 0x00, 0x01] ++ [0xEE]) = .ok (.load 0 1, [0xEE]) := by decide
theorem test_decode_STORE : decode ([0x49, 0x04, 0x05] ++ [0xEE]) = .ok (.store 4 5, [0xEE]) := by decide
theorem test_decode_ALOAD : decode ([0x4A, 0x06, 0x34, 0x12, 0x07] ++ [0xEE]) = .ok (.aload 6 0x1234 7, [0xEE]) := by decide
theorem test_encode_ALOAD : encode (.aload 6 0x1234 7) = [0x4A, 0x06, 0x34, 0x12, 0x07] := by decide
theorem test_decode_ASTORE : decode ([0x4B, 0x34, 0x12, 0x06, 0x07] ++ [0xEE]) = .ok (.astore 0x1234 6 7, [0xEE]) := by decide
theorem test_encode_ASTORE : encode (.astore 0x1234 6 7) = [0x4B, 0x34, 0x12, 0x06, 0x07] := by decide
theorem test_decode_JMP : decode ([0x50, 0x34, 0x12] ++ [0xEE]) = .ok (.jmp 0x1234, [0xEE]) := by decide
theorem test_encode_JMP : encode (.jmp 0x1234) = [0x50, 0x34, 0x12] := by decide
theorem test_decode_JEQ : decode ([0x51, 0x00, 0x01] ++ [0xEE]) = .ok (.jeq 0x0100, [0xEE]) := by decide
theorem test_decode_JNE : decode ([0x52, 0x12, 0x00] ++ [0xEE]) = .ok (.jne 0x0012, [0xEE]) := by decide
theorem test_decode_JGT : decode ([0x53, 0xFF, 0x00] ++ [0xEE]) = .ok (.jgt 0x00FF, [0xEE]) := by decide
theorem test_decode_JLT : decode ([0x54, 0x01, 0x02] ++ [0xEE]) = .ok (.jlt 0x0201, [0xEE]) := by decide
theorem test_decode_JGTU : decode ([0x55, 0xFE, 0xFF] ++ [0xEE]) = .ok (.jgtu 0xFFFE, [0xEE]) := by decide
theorem test_decode_JLTU : decode ([0x56, 0x00, 0x80] ++ [0xEE]) = .ok (.jltu 0x8000, [0xEE]) := by decide
theorem test_decode_CALL : decode ([0x58, 0xCD, 0xAB] ++ [0xEE]) = .ok (.call 0xABCD, [0xEE]) := by decide
theorem test_decode_RET : decode ([0x59] ++ [0xEE]) = .ok (.ret, [0xEE]) := by decide
theorem test_decode_SYSCALL : decode ([0x60, 0x02, 0x00, 0x01, 0x0F, 0x34, 0x12] ++ [0xEE]) = .ok (.syscall 0x010002 15 0x1234, [0xEE]) := by decide
theorem test_encode_SYSCALL : encode (.syscall 0x010002 15 0x1234) = [0x60, 0x02, 0x00, 0x01, 0x0F, 0x34, 0x12] := by decide

theorem test_tableWord_LOADI : decodeTableWord 40 0x1234560302 = some (.loadi 3 0x123456) := by decide
theorem test_tableWord_upper_bits_zero : decodeTableWord 8 0xFF01 = some .halt := by decide
theorem test_withFetchWord_runs : see faultOf (step (State.reset.withFetchWord 8 0x59)) = some (some (3, 0, 0), 0) := by decide

/-! ## One step of every instruction -/

/-- LM2 with the flags of LM3 -/
theorem test_LOADI :
    see (regFlags 3) (run { State.reset with flags := ⟨false, true, true, false⟩ } [0x02, 0x03, 0xFF, 0xFF, 0xFF]) =
      some (0xFFFFFF, [0, 1, 1, 0]) := by decide
/-- LM4 -/
theorem test_MOV :
    see (regFlags 0) (run (regs [(1, 0xABCDEF)]) [0x03, 0x00, 0x01]) =
      some (0xABCDEF, [0, 0, 0, 0]) := by decide
/-- LM6 -/
theorem test_SWAP :
    see (fun t => (t.reg 2, t.reg 3, t.pc)) (run (regs [(2, 5), (3, 9)]) [0x04, 0x02, 0x03]) =
      some (9, 5, 3) := by decide
/-- §2, add -/
theorem test_ADD : see (regFlags 2) (run (regs [(0, 0x800000), (1, 0x800000)]) [0x10, 0x02, 0x00, 0x01]) = some (0, [1, 0, 1, 1]) := by decide
/-- §1.2 -/
theorem test_ADD_signed_overflow : see (regFlags 2) (run (regs [(0, 0x7FFFFF), (1, 1)]) [0x10, 0x02, 0x00, 0x01]) = some (0x800000, [0, 1, 0, 1]) := by decide
/-- AR2 -/
theorem test_SUB : see (regFlags 2) (run (regs [(0, 5), (1, 7)]) [0x11, 0x02, 0x00, 0x01]) = some (0xFFFFFE, [0, 1, 1, 0]) := by decide
/-- §2, sub -/
theorem test_SUB_overflow : see (regFlags 2) (run (regs [(0, 0x7FFFFF), (1, 0xFFFFFF)]) [0x11, 0x02, 0x00, 0x01]) = some (0x800000, [0, 1, 1, 1]) := by decide
/-- §2, mul -/
theorem test_MUL_unsigned : see (regFlags 2) (run (regs [(0, 0xFFFFFF), (1, 0xFFFFFF)]) [0x12, 0x02, 0x00, 0x01]) = some (1, [0, 0, 1, 0]) := by decide
/-- §2, mul -/
theorem test_MUL_signed : see (regFlags 2) (run (regs [(0, 0x400000), (1, 2)]) [0x12, 0x02, 0x00, 0x01]) = some (0x800000, [0, 1, 0, 1]) := by decide
/-- AR4 -/
theorem test_DIV : see (regFlags 2) (run (regs [(0, 0xFFFFF9), (1, 2)]) [0x13, 0x02, 0x00, 0x01]) = some (0xFFFFFD, [0, 1, 0, 0]) := by decide
/-- §2, div -/
theorem test_DIV_overflow : see (regFlags 2) (run (regs [(0, 0x800000), (1, 0xFFFFFF)]) [0x13, 0x02, 0x00, 0x01]) = some (0x800000, [0, 1, 0, 1]) := by decide
/-- §2, mod -/
theorem test_MOD : see (regFlags 2) (run (regs [(0, 0xFFFFF9), (1, 0xFFFFFE)]) [0x14, 0x02, 0x00, 0x01]) = some (0xFFFFFF, [0, 1, 0, 0]) := by decide
/-- §2, mod -/
theorem test_MOD_min : see (regFlags 2) (run (regs [(0, 0x800000), (1, 0xFFFFFF)]) [0x14, 0x02, 0x00, 0x01]) = some (0, [1, 0, 0, 0]) := by decide
/-- AR19 -/
theorem test_ADDI : see (regFlags 2) (run (regs [(2, 7)]) [0x18, 0x02, 0x02, 0xFF, 0xFF, 0xFF]) = some (6, [0, 0, 1, 0]) := by decide
/-- AR7 -/
theorem test_SUBI : see (regFlags 1) (run (regs [(1, 3)]) [0x19, 0x01, 0x01, 0x01, 0x00, 0x00]) = some (2, [0, 0, 0, 0]) := by decide
/-- AR8 -/
theorem test_MULI : see (regFlags 0) (run (regs [(1, 5)]) [0x1A, 0x00, 0x01, 0x03, 0x00, 0x00]) = some (15, [0, 0, 0, 0]) := by decide
/-- AR9 -/
theorem test_DIVI_by_zero :
    see faultOf (run (regs [(1, 10)]) [0x1B, 0x00, 0x01, 0x00, 0x00, 0x00]) =
      some (some (5, 0, 0), 0) := by decide
/-- §2, div -/
theorem test_DIVI : see (regFlags 0) (run (regs [(1, 7)]) [0x1B, 0x00, 0x01, 0xFE, 0xFF, 0xFF]) = some (0xFFFFFD, [0, 1, 0, 0]) := by decide
/-- AR10 -/
theorem test_MODI : see (regFlags 0) (run (regs [(1, 10)]) [0x1C, 0x00, 0x01, 0x03, 0x00, 0x00]) = some (1, [0, 0, 0, 0]) := by decide
/-- §2, mod -/
theorem test_MODI_by_zero :
    see faultOf (run (regs [(1, 10)]) [0x1C, 0x00, 0x01, 0x00, 0x00, 0x00]) =
      some (some (5, 0, 0), 0) := by decide
/-- AR18 -/
theorem test_ADDA : see (regFlags 0) (run (regs [(0, 0xFFFFFF)]) [0x20, 0x00, 0x00]) = some (0xFFFFFE, [0, 1, 1, 0]) := by decide
/-- AR12 -/
theorem test_SUBA : see (regFlags 0) (run (regs [(0, 4), (1, 5)]) [0x21, 0x00, 0x01]) = some (0xFFFFFF, [0, 1, 1, 0]) := by decide
/-- AR13 -/
theorem test_MULA : see (regFlags 0) (run (regs [(0, 4), (1, 5)]) [0x22, 0x00, 0x01]) = some (20, [0, 0, 0, 0]) := by decide
/-- AR14 -/
theorem test_DIVA : see (regFlags 0) (run (regs [(0, 20), (1, 6)]) [0x23, 0x00, 0x01]) = some (3, [0, 0, 0, 0]) := by decide
/-- AR17 -/
theorem test_DIVA_by_zero :
    see (fun t => (faultOf t, t.reg 0)) (run (regs [(0, 20)]) [0x23, 0x00, 0x01]) =
      some ((some (5, 0, 0), 0), 20) := by decide
/-- AR15 -/
theorem test_MODA : see (regFlags 0) (run (regs [(0, 20), (1, 6)]) [0x24, 0x00, 0x01]) = some (2, [0, 0, 0, 0]) := by decide
/-- §2.1 -/
theorem test_CMP : see (regFlags 0) (run (regs [(0, 0x7FFFFF), (1, 0x800000)]) [0x28, 0x00, 0x01]) = some (0x7FFFFF, [0, 1, 1, 1]) := by decide
/-- BW1 -/
theorem test_AND : see (regFlags 2) (run (regs [(0, 0xF0F0F0), (1, 0xFF00FF)]) [0x30, 0x02, 0x00, 0x01]) = some (0xF000F0, [0, 1, 0, 0]) := by decide
/-- BW2 -/
theorem test_OR : see (regFlags 2) (run (regs [(0, 0x0F0000), (1, 0x0000F0)]) [0x31, 0x02, 0x00, 0x01]) = some (0x0F00F0, [0, 0, 0, 0]) := by decide
/-- BW7 -/
theorem test_XOR :
    see (regFlags 5) (run { regs [(5, 0xABCDEF)] with flags := ⟨false, true, true, true⟩ } [0x32, 0x05, 0x05, 0x05]) =
      some (0, [1, 0, 0, 0]) := by decide
/-- BW4 -/
theorem test_NOT : see (regFlags 0) (run (regs [(1, 1)]) [0x33, 0x00, 0x01]) = some (0xFFFFFE, [0, 1, 0, 0]) := by decide
/-- BW5 -/
theorem test_SHL : see (regFlags 2) (run (regs [(0, 1), (1, 23)]) [0x34, 0x02, 0x00, 0x01]) = some (0x800000, [0, 1, 0, 0]) := by decide
/-- §2, shl -/
theorem test_SHL_count_unsigned : see (regFlags 2) (run (regs [(0, 5), (1, 0xFFFFFF)]) [0x34, 0x02, 0x00, 0x01]) = some (0, [1, 0, 0, 0]) := by decide
/-- BW6 -/
theorem test_SHR : see (regFlags 2) (run (regs [(0, 0x800000), (1, 4)]) [0x35, 0x02, 0x00, 0x01]) = some (0x080000, [0, 0, 0, 0]) := by decide
/-- BW8 -/
theorem test_SHR_count_24 : see (regFlags 2) (run (regs [(0, 0x123456), (1, 24)]) [0x35, 0x02, 0x00, 0x01]) = some (0, [1, 0, 0, 0]) := by decide
/-- ST1 -/
theorem test_PUSH :
    see (fun t => (t.mem.readBytes 0xFFFD 3, t.sp)) (run (regs [(5, 0x123456)]) [0x40, 0x05]) =
      some ([0x56, 0x34, 0x12], 0xFFFD) := by decide
/-- ST5 -/
theorem test_PUSH_full :
    see (fun t => (faultOf t, t.sp)) (run { State.reset with stackLimit := 0x20, sp := 0x20 } [0x40, 0x00]) =
      some ((some (2, 0, 0), 0), 0x20) := by decide
/-- ST2 -/
theorem test_POP :
    see (fun t => (t.reg 7, t.sp, t.mem.read 0xFFFD)) (run (put { State.reset with sp := 0xFFFD } 0xFFFD [0x56, 0x34, 0x12]) [0x41, 0x07]) =
      some (0x123456, 0x10000, 0x56) := by decide
/-- ST6 -/
theorem test_POP_empty : see faultOf (run State.reset [0x41, 0x00]) = some (some (3, 0, 0), 0) := by decide
/-- ST3 -/
theorem test_PEEK :
    see (fun t => (t.reg 0, t.sp)) (run (put { State.reset with sp := 0xFFFD } 0xFFFD [0x56, 0x34, 0x12]) [0x42, 0x00]) =
      some (0x123456, 0xFFFD) := by decide
/-- ST7 -/
theorem test_PEEK_empty : see faultOf (run State.reset [0x42, 0x00]) = some (some (3, 0, 0), 0) := by decide
/-- MA1 with three bytes that differ -/
theorem test_LOAD :
    see (fun t => t.reg 0) (run (put (regs [(1, 0x100)]) 0x100 [0x2A, 0x01, 0x80]) [0x48, 0x00, 0x01]) =
      some 0x80012A := by decide
/-- MA5 -/
theorem test_LOAD_beyond :
    see faultOf (run (regs [(1, 0xFFFFFF)]) [0x48, 0x00, 0x01]) =
      some (some (1, 0, 0xFFFFFF), 0) := by decide
/-- MA2 -/
theorem test_STORE :
    see (fun t => t.mem.readBytes 0x200 3) (run (regs [(0, 0x0A0B0C), (1, 0x200)]) [0x49, 0x00, 0x01]) =
      some [0x0C, 0x0B, 0x0A] := by decide
/-- MA6 -/
theorem test_STORE_beyond :
    see (fun t => (faultOf t, t.mem.read 0xFFFE)) (run (regs [(0, 5), (1, 0xFFFE)]) [0x49, 0x00, 0x01]) =
      some ((some (1, 0, 0xFFFE), 0), 0) := by decide
/-- MA7 -/
theorem test_ALOAD :
    see (fun t => t.reg 0) (run (put (regs [(2, 2)]) 0x306 [0x07, 0x00, 0x00]) [0x4A, 0x00, 0x00, 0x03, 0x02]) =
      some 7 := by decide
/-- MA11 -/
theorem test_ALOAD_capped :
    see faultOf (run (regs [(2, 0xFFFFFF)]) [0x4A, 0x00, 0x00, 0x01, 0x02]) =
      some (some (1, 0, 0xFFFFFF), 0) := by decide
/-- MA12 -/
theorem test_ASTORE :
    see (fun t => t.mem.readBytes 0xFFFC 3) (run (regs [(2, 0x5554), (3, 0xABCDEF)]) [0x4B, 0x00, 0x00, 0x02, 0x03]) =
      some [0xEF, 0xCD, 0xAB] := by decide
/-- MA10, as a store -/
theorem test_ASTORE_beyond :
    see faultOf (run (regs [(2, 1)]) [0x4B, 0xFD, 0xFF, 0x02, 0x03]) =
      some (some (1, 0, 0x10000), 0) := by decide
/-- CT1 -/
theorem test_JMP : see (fun t => t.pc) (run State.reset [0x50, 0x34, 0x12]) = some 0x001234 := by decide
/-- §2.1, 4 with 4 and 4 with 5 -/
theorem test_JEQ_taken :
    see (fun t => t.pc) (run { State.reset with flags := ⟨true, false, false, false⟩ } [0x51, 0x00, 0x01]) =
      some 0x100 := by decide
/-- §2.1, 4 with 4 and 4 with 5 -/
theorem test_JEQ_not_taken :
    see (fun t => t.pc) (run { State.reset with flags := ⟨false, true, true, false⟩ } [0x51, 0x00, 0x01]) =
      some 3 := by decide
/-- §2.1, 4 with 5 and 4 with 4 -/
theorem test_JNE_taken :
    see (fun t => t.pc) (run { State.reset with flags := ⟨false, true, true, false⟩ } [0x52, 0x00, 0x01]) =
      some 0x100 := by decide
/-- §2.1, 4 with 5 and 4 with 4 -/
theorem test_JNE_not_taken :
    see (fun t => t.pc) (run { State.reset with flags := ⟨true, false, false, false⟩ } [0x52, 0x00, 0x01]) =
      some 3 := by decide
/-- §2.1, 0x7FFFFF with 0x800000 and 0xFFFFFF with 1 -/
theorem test_JGT_taken :
    see (fun t => t.pc) (run { State.reset with flags := ⟨false, true, true, true⟩ } [0x53, 0x00, 0x01]) =
      some 0x100 := by decide
/-- §2.1, 0x7FFFFF with 0x800000 and 0xFFFFFF with 1 -/
theorem test_JGT_not_taken :
    see (fun t => t.pc) (run { State.reset with flags := ⟨false, true, false, false⟩ } [0x53, 0x00, 0x01]) =
      some 3 := by decide
/-- §2.1, 0x800000 with 1 and 0x7FFFFF with 0x800000 -/
theorem test_JLT_taken :
    see (fun t => t.pc) (run { State.reset with flags := ⟨false, false, false, true⟩ } [0x54, 0x00, 0x01]) =
      some 0x100 := by decide
/-- §2.1, 0x800000 with 1 and 0x7FFFFF with 0x800000 -/
theorem test_JLT_not_taken :
    see (fun t => t.pc) (run { State.reset with flags := ⟨false, true, true, true⟩ } [0x54, 0x00, 0x01]) =
      some 3 := by decide
/-- §2.1, 0xFFFFFF with 1 and 1 with 0xFFFFFF -/
theorem test_JGTU_taken :
    see (fun t => t.pc) (run { State.reset with flags := ⟨false, true, false, false⟩ } [0x55, 0x00, 0x01]) =
      some 0x100 := by decide
/-- §2.1, 0xFFFFFF with 1 and 1 with 0xFFFFFF -/
theorem test_JGTU_not_taken :
    see (fun t => t.pc) (run { State.reset with flags := ⟨false, false, true, false⟩ } [0x55, 0x00, 0x01]) =
      some 3 := by decide
/-- §2.1, 1 with 0xFFFFFF and 0x800000 with 1 -/
theorem test_JLTU_taken :
    see (fun t => t.pc) (run { State.reset with flags := ⟨false, false, true, false⟩ } [0x56, 0x00, 0x01]) =
      some 0x100 := by decide
/-- §2.1, 1 with 0xFFFFFF and 0x800000 with 1 -/
theorem test_JLTU_not_taken :
    see (fun t => t.pc) (run { State.reset with flags := ⟨false, false, false, true⟩ } [0x56, 0x00, 0x01]) =
      some 3 := by decide
/-- CT4 -/
theorem test_CALL :
    see (fun t => (t.mem.readBytes 0xFFFD 3, t.sp, t.depth, t.pc)) (run { State.reset with pc := 0x10 } [0x58, 0x00, 0x02]) =
      some ([0x13, 0x00, 0x00], 0xFFFD, 1, 0x200) := by decide
/-- CT7, with a recursion bound of 3 -/
theorem test_CALL_depth_before_stack :
    see faultOf (State.callWith { State.reset with depth := 3, sp := 0 } 3 0x100) =
      some (some (4, 0, 0), 0) := by decide
/-- CT12 -/
theorem test_RET :
    see (fun t => (t.pc, t.sp, t.depth)) (run (put { State.reset with sp := 0xFFFD, depth := 1 } 0xFFFD [0x00, 0x00, 0x01]) [0x59]) =
      some (0x10000, 0x10000, 0) := by decide
/-- CT11 -/
theorem test_RET_empty :
    see faultOf (run { State.reset with depth := 1 } [0x59]) =
      some (some (3, 0, 0), 0) := by decide
/-- SY2, SY6 -/
theorem test_SYSCALL_output :
    see (fun t => t.out) (run (regs [(0, 0x800000)]) [0x60, 0x00, 0x00, 0x00, 0x00, 0x00, 0x00])
      = some [.outInt (-8388608)] ∧
    see (fun t => t.out) (run (put { State.reset with dataBase := 0x20 } 0x20 [0x03, 0x00, 0x68, 0x69, 0x21])
      [0x60, 0x02, 0x00, 0x00, 0x00, 0x00, 0x00]) = some [.outStr [0x68, 0x69, 0x21]] := by decide
/-- SY4, SY5, SY10, SY13 -/
theorem test_SYSCALL_other_services :
    see (fun t => (t.reg 5, t.hostInput)) (run { State.reset with hostInput := [.int (-1), .noInput] }
      [0x60, 0x01, 0x00, 0x00, 0x05, 0x00, 0x00]) = some (0xFFFFFF, [.noInput]) ∧
    see faultOf (run { State.reset with hostInput := [.noInput] } [0x60, 0x01, 0x00, 0x00, 0x00, 0x00, 0x00])
      = some (some (9, 0, 0), 0) ∧
    see (fun t => (t.state, t.status, t.pc)) (run (regs [(0, 7)]) [0x60, 0x03, 0x00, 0x00, 0x00, 0x00, 0x00])
      = some (.halted, some 7, 0) ∧
    see faultOf (run State.reset [0x60, 0x00, 0x00, 0x01, 0x00, 0x00, 0x00]) = some (some (8, 0, 0), 0) := by decide
/-- DC6 -/
theorem test_HALT :
    see (fun t => (t.state, t.status, t.pc)) (run { State.reset with pc := 0xFFFF } [0x01]) =
      some (.halted, some 0, 0xFFFF) := by decide

/-! Two fetches at the end of memory. -/

/-- DC9 -/
theorem test_fetch_beyond :
    see faultOf (step { State.reset with pc := 0x10000 }) =
      some (some (1, 0x10000, 0x10000), 0x10000) := by decide
/-- DC8 -/
theorem test_fetch_cut :
    see faultOf (run { State.reset with pc := 0xFFFC } [0x02, 0x00, 0x01, 0x00]) =
      some (some (1, 0xFFFC, 0xFFFC), 0xFFFC) := by decide

/-! ## Witnesses: for every statement with hypotheses, a state and operands that meet them, at the boundary of each clause.
A statement that is not listed has no hypothesis. -/

/-- A state whose stack has room for exactly `n` bytes above a data section that ends at 0x20. -/
def room (n : Nat) : State := { State.reset with stackLimit := 0x20, sp := BitVec.ofNat 17 (0x20 + n) }

/-! DecodeIsTotalAndInjective: its last three clauses, the last register and the extreme operands among them. -/
theorem witness_operands_fit : (opcodeRow 0x60).map Row.format = some .ira ∧
    operandsOk Format.ira.operands [0xFF, 0xFF, 0xFF, 0x0F, 0xFF, 0xFF] = true := by decide
theorem witness_decode_ok : decode [0x01, 0xEE] = .ok (.halt, [0xEE]) ∧ decode [0x59] = .ok (.ret, []) := by decide

/-! FetchChecksInOrder: pc at 0x10000; an invalid opcode in the last byte; an opcode of 2 bytes in the last byte; a bad
register in an instruction that just fits; a good instruction that just fits. -/
theorem witness_fetch_beyond : ({ State.reset with pc := 0x10000 } : State).state = .running ∧
    65536 < (0x10000 : Word).toNat + 1 := by decide
theorem witness_fetch_invalid : ({ State.reset with pc := 0xFFFF } : State).state = .running ∧
    ¬65536 < (0xFFFF : Word).toNat + 1 ∧ opcodeRow (State.reset.mem.read 0xFFFF) = none := by decide
theorem witness_fetch_cut : (opcodeRow ((put State.reset 0xFFFF [0x40]).mem.read 0xFFFF)).map Row.format = some .r ∧
    65536 < 0xFFFF + Format.r.width := by decide
theorem witness_fetch_bad_register : (opcodeRow ((put State.reset 0xFFFE [0x40, 0x10]).mem.read 0xFFFE)).map Row.format
      = some .r ∧ ¬65536 < 0xFFFE + Format.r.width ∧
    operandsOk Format.r.operands ((put State.reset 0xFFFE [0x40, 0x10]).mem.readBytes 0xFFFF 1) = false := by decide
theorem witness_fetch_good : (opcodeRow ((put State.reset 0xFFFE [0x40, 0x0F]).mem.read 0xFFFE)).map Row.format
      = some .r ∧ ¬65536 < 0xFFFE + Format.r.width ∧
    operandsOk Format.r.operands ((put State.reset 0xFFFE [0x40, 0x0F]).mem.readBytes 0xFFFF 1) = true := by decide

/-! UnlistedOpcodesFault: the third clause, at both ends of memory. -/
theorem witness_unlisted : State.reset.state = .running ∧ State.reset.pc.toNat < 65536 ∧
    opcodeRow (State.reset.mem.read State.reset.pc.toNat) = none := by decide

/-! StepRunsDecodedInstruction and StepRunsTheBytesAtPc: HALT in the last byte, SYSCALL in the last seven. -/
theorem witness_decoded_step : (put State.reset 0 [0x01]).state = .running ∧
    decode (put State.reset 0 [0x01]).fetchWindow = .ok (.halt, [0, 0, 0, 0, 0, 0]) := by decide
theorem witness_bytes_at_pc_last : Instr.halt.width + 0xFFFF ≤ 65536 ∧
    (put { State.reset with pc := 0xFFFF } 0xFFFF [0x01]).mem.readBytes 0xFFFF Instr.halt.width = encode .halt := by decide
theorem witness_bytes_at_pc_longest : (Instr.syscall 1 2 3).width + 0xFFF9 ≤ 65536 ∧
    (put { State.reset with pc := 0xFFF9 } 0xFFF9 [0x60, 1, 0, 0, 2, 3, 0]).mem.readBytes 0xFFF9 (Instr.syscall 1 2 3).width
      = encode (.syscall 1 2 3) := by decide

/-! OnlyRunningHasAStep, RunningStepCompletes: the three run states, and a host that never answers. -/
theorem witness_halted : ({ State.reset with state := .halted, status := some 0 } : State).state = .halted := by decide
theorem witness_faulted : (State.reset.raise .invalidOpcode 0).state = .faulted := by decide
theorem witness_never_answers :
    run { State.reset with hostInput := [.never] } [0x60, 1, 0, 0, 0, 0, 0] = .fault .hostNeverAnswers := rfl

/-! DivisionsWriteQuotient, ModuloWritesRemainder: a divisor of 0, of 1 and of −1 with the least dividend.
QuotientAndRemainderRecompose: the least dividend with a divisor of 1. -/
theorem witness_divisor_zero : ((regs [(1, 0)]).reg 1).toNat = 0 := by decide
theorem witness_divisor_nonzero : ((regs [(1, 1)]).reg 1).toNat ≠ 0 ∧ (0xFFFFFF : Word).toNat ≠ 0 := by decide
theorem witness_divisor_overflow : (0x800000 : Word).toInt = -8388608 ∧ (0xFFFFFF : Word).toInt = -1 := by decide
theorem witness_recompose : ((regs [(0, 0x800000), (1, 1)]).reg 1).toNat ≠ 0 ∧
    ¬(((regs [(0, 0x800000), (1, 1)]).reg 0).toInt = -8388608 ∧ ((regs [(0, 0x800000), (1, 1)]).reg 1).toInt = -1) := by
  decide

/-! PushStoresWord, and the last clause of PopLoadsWord: 2 and 3 bytes of room, and an empty stack. -/
theorem witness_push_full : (room 2).sp.toNat < (room 2).stackLimit.toNat + 3 := by decide
theorem witness_push_ok : (room 3).mem.wf = true ∧ (room 3).stackLimit.toNat + 3 ≤ (room 3).sp.toNat ∧
    (room 3).sp.toNat ≤ 65536 := by decide
theorem witness_push_first : State.reset.mem.wf = true ∧ State.reset.stackLimit.toNat + 3 ≤ State.reset.sp.toNat ∧
    State.reset.sp.toNat ≤ 65536 := by decide

/-! PopLoadsWord, PeekCopiesTop, RetPopsPc: sp at 0xFFFE and at 0xFFFD, depth 0 and 1. -/
theorem witness_pop_empty : 65536 < ({ State.reset with sp := 0xFFFE } : State).sp.toNat + 3 := by decide
theorem witness_pop_ok : ({ State.reset with sp := 0xFFFD } : State).sp.toNat + 3 ≤ 65536 := by decide
theorem witness_ret_depth_zero : State.reset.depth = 0 := by decide
theorem witness_ret_ok : 0 < ({ State.reset with sp := 0xFFFD, depth := 1 } : State).depth ∧
    ({ State.reset with sp := 0xFFFD, depth := 1 } : State).sp.toNat + 3 ≤ 65536 := by decide

/-! LoadReadsWord, StoreWritesWord: the last legal address and the first beyond. -/
theorem witness_load_ok : ((regs [(1, 0xFFFD)]).reg 1).toNat ≤ 65533 ∧ (regs [(1, 0xFFFD)]).mem.wf = true := by decide
theorem witness_load_beyond : 65533 < ((regs [(1, 0xFFFE)]).reg 1).toNat := by decide

/-! AloadReadsElement, AstoreWritesElement: the last legal element and the first beyond. -/
theorem witness_element_ok : (0xFFFD : Addr).toNat + 3 * ((regs [(2, 0)]).reg 2).toNat + 3 ≤ 65536 ∧
    (regs [(2, 0)]).mem.wf = true := by decide
theorem witness_element_beyond : 65536 < (0xFFFE : Addr).toNat + 3 * ((regs [(2, 0)]).reg 2).toNat + 3 := by decide

/-! WordWriteThenRead: the last legal word. -/
theorem witness_word_write : State.reset.mem.wf = true ∧ 65533 + 3 ≤ 65536 := by decide

/-! StoreIntoCodeIsFetched: program P7's store at the reset pc. -/
theorem witness_store_into_code : (regs [(0, 1), (1, 3)]).mem.wf = true ∧ (regs [(0, 1), (1, 3)]).state = .running ∧
    ((regs [(0, 1), (1, 3)]).reg 1).toNat ≤ 65533 ∧ (regs [(0, 1), (1, 3)]).reg 1 = (regs [(0, 1), (1, 3)]).pc + 3 ∧
    ((regs [(0, 1), (1, 3)]).reg 0).toNat % 256 = 1 := by decide

/-! CanonicalMemoryIsUnique: a memory of one byte. -/
theorem witness_canonical : Memory.wf [(5, 1)] = true ∧ ∀ a, Memory.read [(5, 1)] a = Memory.read [(5, 1)] a :=
  ⟨by decide, fun _ => rfl⟩

/-! ConditionalJumpsTestFlags: every condition holds of some flags and fails of others. -/
theorem witness_conditions_hold : (true = true) ∧ (⟨false, true, true, true⟩ : Flags).z = false ∧
    (⟨false, true, true, true⟩ : Flags).n = (⟨false, true, true, true⟩ : Flags).v ∧
    (⟨false, true, false, false⟩ : Flags).n ≠ (⟨false, true, false, false⟩ : Flags).v ∧
    (⟨false, true, false, false⟩ : Flags).c = false ∧ (⟨false, false, true, false⟩ : Flags).c = true ∧
    (⟨true, false, false, false⟩ : Flags).z = true := by decide

/-! CallPushesReturnAddress, CallThenRetComesBack: a call at depth MAX_STACK_DEPTH, at the depth below it with a full stack
and with room for one word, and at the last pc from which a call can come back. -/
theorem witness_call_too_deep :
    Config.maxStackDepth < ({ State.reset with depth := Config.maxStackDepth } : State).depth + 1 := Nat.lt_succ_self _
theorem witness_call_stack_full : ({ room 2 with depth := Config.callDepthHeadroom } : State).depth + 1 ≤
      Config.maxStackDepth ∧ (room 2).sp.toNat < (room 2).stackLimit.toNat + 3 := ⟨Nat.le_refl _, by decide⟩
theorem witness_call_ok : (room 3).mem.wf = true ∧
    ({ room 3 with depth := Config.callDepthHeadroom } : State).depth + 1 ≤ Config.maxStackDepth ∧
    (room 3).stackLimit.toNat + 3 ≤ (room 3).sp.toNat ∧ (room 3).sp.toNat ≤ 65536 :=
  ⟨by decide, Nat.le_refl _, by decide, by decide⟩
theorem witness_call_then_ret : ({ room 3 with pc := 0xFFFD } : State).depth + 1 ≤ Config.maxStackDepth ∧
    ({ room 3 with pc := 0xFFFD } : State).pc.toNat + 3 ≤ 65536 :=
  ⟨Nat.succ_le_succ (Nat.zero_le _), by decide⟩

/-! PrintIntegerEmits, ReadIntegerTakesAnswer, HostAnswersAreTakenInOrder, PrintStringEmits, ExitHaltsWithStatus,
UnknownSyscallFaults, SyscallIgnoresUnusedOperands: the ids, the three answers, no answer lined up, and the bounds of a
string. -/
theorem witness_syscall_ids : (0 : Word).toNat = 0 ∧ (1 : Word).toNat = 1 ∧ (2 : Word).toNat = 2 ∧ (3 : Word).toNat = 3 ∧
    4 ≤ (4 : Word).toNat ∧ 4 ≤ (0x010000 : Word).toNat := by decide
theorem witness_host_integer : ({ State.reset with hostInput := [.int (-1), .noInput] } : State).hostInput
      = .int (-1) :: [.noInput] ∧
    ({ State.reset with hostInput := [.int (-1), .noInput] } : State).hostAnswer = .int (-1) := by decide
theorem witness_host_no_input : ({ State.reset with hostInput := [.noInput] } : State).hostAnswer = .noInput := by decide
theorem witness_host_never : ({ State.reset with hostInput := [.never] } : State).hostAnswer = .never := by decide
theorem witness_host_none_lined_up : State.reset.hostInput = [] := by decide
theorem witness_string_prefix_beyond : 65536 < ({ State.reset with dataBase := 0x10 } : State).dataBase.toNat +
    (0xFFEF : Addr).toNat + 2 := by decide
theorem witness_string_body_beyond : 0xFFFE + 2 ≤ 65536 ∧
    65536 < 0xFFFE + 2 + ((put State.reset 0xFFFE [0x01]).mem.read 0xFFFE).toNat +
      256 * ((put State.reset 0xFFFE [0x01]).mem.read 0xFFFF).toNat := by decide
theorem witness_string_ok : 0xFFFD + 2 + ((put State.reset 0xFFFD [0x01]).mem.read 0xFFFD).toNat +
    256 * ((put State.reset 0xFFFD [0x01]).mem.read 0xFFFE).toNat = 65536 := by decide

/-! FaultEntryIsPrecise, StepKeepsInvariant, StepKeepsLatches: the step from reset, which fetches a zero byte. -/
theorem witness_fault_entry : step State.reset = .next (State.reset.raise .invalidOpcode 0) ∧
    (State.reset.raise .invalidOpcode 0).state = .faulted ∧ ErrorKind.invalidOpcode ≠ .outOfBounds :=
  ⟨rfl, rfl, by decide⟩
theorem witness_inv_step : Inv State.reset ∧ step State.reset = .next (State.reset.raise .invalidOpcode 0) :=
  ⟨⟨by decide, by decide, by decide, by decide, Nat.zero_le _, by decide, by decide, fun _ h => (nomatch h),
    fun _ h => (nomatch h)⟩, rfl⟩

/-! OnlyAluWritesFlags: an instruction that writes no flag, one that faults, one that writes all four.
OnlyConditionalJumpsReadFlags: a next state and a stop. -/
theorem witness_no_flags : writesFlags (.loadi 0 0) = false ∧
    see (fun t => t.pc) (exec (.loadi 0 0) State.reset) = some 5 := by decide
theorem witness_faulting_alu : writesFlags (.div 0 0 0) = true ∧ State.reset.state = .running ∧
    see (fun t => t.state) (exec (.div 0 0 0) State.reset) = some .faulted := by decide
theorem witness_all_flags : writesFlags (.add 0 0 0) = true ∧ State.reset.state = .running ∧
    see (fun t => (t.state, zncv t)) (exec (.add 0 0 0) State.reset) = some (.running, [1, 0, 0, 0]) := by decide
theorem witness_flags_unread : readsFlags (.syscall 1 0 0) = false ∧
    exec (.syscall 1 0 0) { State.reset with hostInput := [.never] } = .fault .hostNeverAnswers := ⟨rfl, rfl⟩

/-! OnlyDestinationsChange, OnlyTheStoredWordChanges, OnlyStackInstructionsMoveSp, OnlySyscallReachesHost: one instruction
of each side of each clause has a next state. -/
theorem witness_destination : see (fun t => t.reg 1) (exec (.loadi 0 9) State.reset) = some 0 ∧
    (1 : RegIdx) ∉ destinations (.loadi 0 9) := by decide
theorem witness_stored_word : storeAddr (.store 0 1) (regs [(0, 5), (1, 0xFFFD)]) = some 0xFFFD ∧
    see (fun t => t.mem) (exec (.store 0 1) (regs [(0, 5), (1, 0xFFFD)])) = some [(0xFFFD, 5)] := by decide
theorem witness_nothing_stored : storeAddr .halt State.reset = none ∧
    see (fun t => t.mem) (exec .halt State.reset) = some [] := by decide
theorem witness_sp_still : movesSp .halt = false ∧ see (fun t => t.sp) (exec .halt State.reset) = some 0x10000 := by
  decide
theorem witness_sp_moved : see (fun t => t.sp) (exec (.push 0) (room 3)) = some 0x20 ∧
    see (fun t => (t.sp, t.depth)) (exec (.call 0) (room 3)) = some (0x20, 1) ∧
    see (fun t => t.sp) (exec (.pop 0) (room 0)) = some 0x23 ∧
    see (fun t => (t.sp, t.depth)) (exec .ret { room 0 with depth := 1 }) = some (0x23, 0) := by decide

/-! LoadedStateIsAsStated: a magic of four bytes, the smallest image and one that fills memory. LoaderAcceptsExactlyGoodImages: a magic of four
bytes. LoadedImageMeetsInvariant: the image of a HALT, whatever the magic. -/
theorem witness_image_smallest : 0 < [(1 : Byte)].length ∧ [(1 : Byte)].length < 65536 ∧
    ([] : List Byte).length < 65536 ∧ [(1 : Byte)].length + ([] : List Byte).length ≤ 65536 := by decide
theorem witness_image_full : 65534 < (List.replicate 65535 (1 : Byte)).length ∧
    (List.replicate 65535 (1 : Byte)).length < 65536 ∧
    (List.replicate 65535 (1 : Byte)).length + [(0 : Byte)].length ≤ 65536 := by
  simp only [List.length_replicate, List.length_singleton]
  omega
theorem witness_magic : ([0, 0, 0, 0] : List Byte).length = 4 ∧
    loadImageWith [0, 0, 0, 0] [0, 0, 0, 0, 1, 0, 0, 1, 0, 0, 0, 1] = some (State.loaded 0 [1] []) := by decide
theorem witness_loaded_image :
    loadImage (buildImage Config.imageMagic.toList 0 [1] []) = some (State.loaded 0 [1] []) := by
  have h : Config.imageMagic.toList.length = 4 := by simp
  unfold loadImage
  match Config.imageMagic.toList, h with
  | [m0, m1, m2, m3], _ =>
    exact if_pos ⟨rfl, rfl, rfl, by decide, by decide⟩

/-! The loader refuses (R160): a wrong magic, a wrong version, an entry beyond the code, sections that do not match. -/
theorem test_loader_refuses : loadImageWith [0, 0, 0, 0] [1, 0, 0, 0, 1, 0, 0, 1, 0, 0, 0, 1] = none ∧
    loadImageWith [0, 0, 0, 0] [0, 0, 0, 0, 2, 0, 0, 1, 0, 0, 0, 1] = none ∧
    loadImageWith [0, 0, 0, 0] [0, 0, 0, 0, 1, 1, 0, 1, 0, 0, 0, 1] = none ∧
    loadImageWith [0, 0, 0, 0] [0, 0, 0, 0, 1, 0, 0, 1, 0, 1, 0, 1] = none := by decide

end Sys2Proof.Tests
end

section
/-! PROOFS. The flags (spec/10_state.md §3, R19): who writes them, what a fault keeps, and that an ALU result does not
depend on the flags before it. -/

namespace Sys2Proof.Machine

variable {i : Instr} {s t : State}

/-! ## What a next state does to run state and flags -/

/-- The run state is as before, or a fault was taken, or the run ended. -/
theorem ExecForm.state_cases (h : ExecForm i s t) :
    t.state = s.state ∨ (∃ k a, t = s.raise k a) ∨ ∃ v, t = s.haltWith v := by
  cases h with
  | raised k a _ => exact .inr (.inl ⟨k, a, rfl⟩)
  | halted v _ => exact .inr (.inr ⟨v, rfl⟩)
  | wroteReg | swapped | wroteAlu | compared | pushed | popped | stored | jumped | called | returned | emitted
  | answered => exact .inl (by simp)

/-- A running machine that an instruction leaves in Faulted has taken a fault and done nothing else (R80, R145). -/
theorem eq_raise_of_exec_faulted (h : exec i s = .next t) (hs : s.state = .running) (ht : t.state = .faulted) :
    ∃ k a, t = s.raise k a := by
  rcases (exec_form h).state_cases with hst | hraise | ⟨v, rfl⟩
  · rw [hst, hs] at ht; cases ht
  · exact hraise
  · cases ht

/-- An instruction outside the 22 of R19 keeps the flags. -/
theorem ExecForm.flags_eq (h : ExecForm i s t) (hw : writesFlags i = false) : t.flags = s.flags := by
  cases h with
  | wroteAlu _ _ _ _ hf => rw [hw] at hf; cases hf
  | compared ra rb hi => rw [hi] at hw; cases hw
  | raised | wroteReg | swapped | pushed | popped | stored | jumped | called | returned | emitted | answered
  | halted => simp

/-! ## The 22 instructions overwrite the flags without reading them -/

/-- A division that does not fault answers the same from any flags. -/
theorem guardDivisor_writeAlu_setFlags {d : Word} {rd : RegIdx} {o : AluOut} {fmt : Format} (f : Flags)
    (h : s.guardDivisor d (.next (s.writeAlu rd o fmt)) = .next t) (ht : t.state ≠ .faulted) :
    (s.setFlags f).guardDivisor d (.next ((s.setFlags f).writeAlu rd o fmt)) = .next t := by
  rcases guardDivisor_cases h with ⟨hd, h⟩ | ⟨_, rfl⟩
  · rw [guardDivisor_ok _ hd]; exact h
  · exact absurd (raise_state ..) ht

/-- One of the 22 that does not fault answers the same whole state from any flags: operands come from registers and
immediates, and all four flags are overwritten (R19, R34). -/
theorem exec_setFlags_of_writesFlags (f : Flags) (h : exec i s = .next t) (hw : writesFlags i = true)
    (ht : t.state ≠ .faulted) : exec i (s.setFlags f) = .next t := by
  cases i with
  | add | sub | mul | addi | subi | muli | adda | suba | mula | cmp | and | or | xor | not | shl | shr => exact h
  | div | mod | divi | modi | diva | moda => exact guardDivisor_writeAlu_setFlags f h ht
  | halt | loadi | mov | swap | push | pop | peek | load | store | aload | astore | jmp | jeq | jne | jgt | jlt | jgtu
  | jltu | call | ret | syscall => cases hw

/-- Settles O52: from what an instruction can do (`exec_form`), and from the 22 not depending on the old flags. -/
theorem onlyAluWritesFlags : Obligations.OnlyAluWritesFlags := by
  intro i s t h
  refine ⟨(exec_form h).flags_eq, fun hs ht => ?_, fun hw _ ht f => ?_⟩
  · obtain ⟨k, a, rfl⟩ := eq_raise_of_exec_faulted h hs ht
    exact raise_flags s k a
  · exact ⟨t, exec_setFlags_of_writesFlags f h hw ht, rfl⟩

end Sys2Proof.Machine
end

section
/-! PROOFS. Loading an image (spec/70_reset_and_hazards.md R159 to R161): the header fields read back, the image that is
built is the image that is loaded, and where its bytes lie. -/

namespace Sys2Proof.Machine

/-! ## The header -/

/-- A 2-byte header field reads back as the number it was made of (R45, R159). -/
theorem leNat_le16 {n : Nat} (h : n < 65536) : leNat (le16 n) = n := by
  simp only [le16, leNat, BitVec.toNat_ofNat]
  omega

/-- The loader accepts the image of every entry, code and data that fit (R160). -/
theorem loadImageWith_buildImage {magic : List Byte} {entry : Nat} {code data : List Byte} (hm : magic.length = 4)
    (he : entry < code.length) (hc : code.length < 65536) (hd : data.length < 65536)
    (hfit : code.length + data.length ≤ 65536) :
    loadImageWith magic (buildImage magic entry code data) = some (State.loaded entry code data) := by
  match magic, hm with
  | [m0, m1, m2, m3], _ =>
    have hentry : leNat (le16 entry) = entry := leNat_le16 (by omega)
    have hcode : leNat (le16 code.length) = code.length := leNat_le16 hc
    have hdata : leNat (le16 data.length) = data.length := leNat_le16 hd
    unfold le16 at hentry hcode hdata
    simp only [buildImage, le16, List.cons_append, List.nil_append, loadImageWith, hentry, hcode, hdata,
      List.length_append, List.take_left, List.drop_left, true_and]
    exact if_pos ⟨hfit, he⟩

/-! ## The memory of a loaded state (R40, R161) -/

theorem loaded_mem (entry : Nat) (code data : List Byte) :
    (State.loaded entry code data).mem = Memory.ofBytes 0 (code ++ data) := rfl

/-- The code lies at 0. -/
theorem loaded_read_code (entry : Nat) {code : List Byte} (data : List Byte) {k : Nat} (h : k < code.length) :
    (State.loaded entry code data).mem.read k = code[k] := by
  rw [loaded_mem, read_ofBytes, dif_pos (by rw [List.length_append]; omega)]
  exact List.getElem_append_left h

/-- The data lies right after the code. -/
theorem loaded_read_data (entry : Nat) (code : List Byte) {data : List Byte} {k : Nat} (h : k < data.length) :
    (State.loaded entry code data).mem.read (code.length + k) = data[k] := by
  rw [loaded_mem, read_ofBytes, dif_pos (by rw [List.length_append]; omega)]
  simp

/-- Every byte beyond the image is 0. -/
theorem loaded_read_beyond (entry : Nat) {code data : List Byte} {a : Nat} (h : code.length + data.length ≤ a) :
    (State.loaded entry code data).mem.read a = 0 := by
  rw [loaded_mem, read_ofBytes, dif_neg (by rw [List.length_append]; omega)]
  rfl

/-! ## The numbers of a loaded state (R161) -/

theorem loaded_reg (entry : Nat) (code data : List Byte) (r : RegIdx) : (State.loaded entry code data).reg r = 0 := by
  simp [State.loaded, State.reset, State.reg, Vector.get_eq_getElem]

theorem loaded_pc_toNat {entry : Nat} (code data : List Byte) (h : entry < 65536) :
    (State.loaded entry code data).pc.toNat = entry := by
  simp only [State.loaded, BitVec.toNat_ofNat]
  omega

theorem loaded_dataBase_toNat (entry : Nat) {code : List Byte} (data : List Byte) (h : code.length < 65536) :
    (State.loaded entry code data).dataBase.toNat = code.length := by
  simp only [State.loaded, BitVec.toNat_ofNat]
  omega

theorem loaded_stackLimit_toNat (entry : Nat) {code data : List Byte} (h : code.length + data.length ≤ 65536) :
    (State.loaded entry code data).stackLimit.toNat = code.length + data.length := by
  simp only [State.loaded, BitVec.toNat_ofNat]
  omega

/-- Settles O59: the image is loaded, and each field of the loaded state is as R40 and R161 say. -/
theorem loadedStateIsAsStated : Obligations.LoadedStateIsAsStated := by
  intro magic entry code data hm he hc hd hfit
  exact ⟨State.loaded entry code data, loadImageWith_buildImage hm he hc hd hfit, loaded_reg entry code data, rfl,
    loaded_pc_toNat code data (Nat.lt_trans he hc), rfl, rfl, loaded_dataBase_toNat entry data hc,
    loaded_stackLimit_toNat entry hfit, fun _ hk => loaded_read_code entry data hk,
    fun _ hk => loaded_read_data entry code hk, fun _ ha => loaded_read_beyond entry ha, rfl, rfl, rfl, rfl⟩

end Sys2Proof.Machine
end

section
/-! PROOFS. The decoder (spec/30_encoding.md §4, R66 to R69): how many operand bytes a format takes, what the decoder
answers for any byte list, what a fetch sees, and the checks of a step in their order. -/

namespace Sys2Proof

/-! ## Operand bytes (R63, R65) -/

/-- Bytes that fit operand kinds are as many as the kinds take. -/
theorem length_of_operandsOk {ks : List OperandKind} {bs : List Byte} (h : operandsOk ks bs = true) :
    bs.length = (ks.map OperandKind.size).sum := by
  induction ks, bs using operandsOk.induct with
  | case1 => rfl
  | case2 ks _ bs ih =>
    rw [operandsOk, Bool.and_eq_true] at h
    simp only [List.map_cons, List.sum_cons, List.length_cons, OperandKind.size, ih h.2]
    omega
  | case3 ks _ _ _ bs ih =>
    simp only [List.map_cons, List.sum_cons, List.length_cons, OperandKind.size, ih h]
    omega
  | case4 ks _ _ bs ih =>
    simp only [List.map_cons, List.sum_cons, List.length_cons, OperandKind.size, ih h]
    omega
  | case5 => simp_all [operandsOk]

/-- A width is the opcode byte and the operands' bytes (R65). -/
theorem width_eq_operands_size (f : Format) : f.width = 1 + (f.operands.map OperandKind.size).sum := by
  cases f <;> rfl

theorem width_le_maxWidth (f : Format) : f.width ≤ maxWidth := by
  cases f <;> decide

theorem width_pos (f : Format) : 0 < f.width := by
  cases f <;> decide

/-! ## What the decoder answers (R66, R69) -/

/-- Bytes that fit an opcode's format decode to an instruction of that format, with nothing left over. -/
theorem decode_of_operandsOk {op : Byte} {row : Row} {bs : List Byte} (hrow : opcodeRow op = some row)
    (hok : operandsOk row.format.operands bs = true) : ∃ i, decode (op :: bs) = .ok (i, []) ∧ i.format = row.format := by
  have hlen : bs.length = row.format.width - 1 := by
    rw [length_of_operandsOk hok, width_eq_operands_size, Nat.add_sub_cancel_left]
  rw [decode_cons bs hrow]
  rcases parse_form hrow bs with ⟨hshort, _⟩ | ⟨_, hbad, _⟩ | ⟨_, _, i, _, hfmt, hparse⟩
  · omega
  · rw [← hlen, List.take_length, hok] at hbad
    cases hbad
  · rw [← hlen, List.drop_length] at hparse
    exact ⟨i, hparse, hfmt⟩

/-- A decoded instruction encodes to the bytes it was read from. -/
theorem encode_of_decode {bs rest : List Byte} {i : Instr} (h : decode bs = .ok (i, rest)) : encode i ++ rest = bs := by
  cases bs with
  | nil => cases h
  | cons op bs =>
    cases hrow : opcodeRow op with
    | none => rw [decode_invalid bs hrow] at h; cases h
    | some row =>
      rw [decode_cons bs hrow] at h
      rcases parse_form hrow bs with ⟨_, hparse⟩ | ⟨_, _, hparse⟩ | ⟨_, _, j, henc, _, hparse⟩
      · rw [hparse] at h; cases h
      · rw [hparse] at h; cases h
      · obtain ⟨rfl, rfl⟩ : j = i ∧ bs.drop (row.format.width - 1) = rest := by simpa [hparse] using h
        rw [henc, List.cons_append, List.take_append_drop]

/-- Settles O2: totality by the decoder's result type, the other clauses by what the parser of a row can answer
(`parse_form`); injectivity because the instruction's encoding gives the bytes back. -/
theorem decodeIsTotalAndInjective : Obligations.DecodeIsTotalAndInjective := by
  refine ⟨fun bs => ?_, fun op row bs => decode_of_operandsOk, fun bs i rest => encode_of_decode,
    fun bs bs' i h h' => (encode_of_decode h).symm.trans (encode_of_decode h')⟩
  cases hd : decode bs with
  | ok p => exact .inl ⟨p.1, p.2, rfl⟩
  | error e => exact .inr ⟨e, rfl⟩

/-! ## The unlisted opcodes (R68) -/

/-- The bytes that are no opcode, as ranges. -/
theorem opcodeRow_eq_none_iff (op : Byte) : opcodeRow op = none ↔
    op.toNat = 0 ∨ (0x05 ≤ op.toNat ∧ op.toNat ≤ 0x0F) ∨ (0x15 ≤ op.toNat ∧ op.toNat ≤ 0x17) ∨
    (0x1D ≤ op.toNat ∧ op.toNat ≤ 0x1F) ∨ (0x25 ≤ op.toNat ∧ op.toNat ≤ 0x27) ∨
    (0x29 ≤ op.toNat ∧ op.toNat ≤ 0x2F) ∨ (0x36 ≤ op.toNat ∧ op.toNat ≤ 0x3F) ∨
    (0x43 ≤ op.toNat ∧ op.toNat ≤ 0x47) ∨ (0x4C ≤ op.toNat ∧ op.toNat ≤ 0x4F) ∨ op.toNat = 0x57 ∨
    (0x5A ≤ op.toNat ∧ op.toNat ≤ 0x5F) ∨ 0x61 ≤ op.toNat := by
  unfold opcodeRow
  split
  case h_44 => -- `op` is none of the 43 numbers the map lists
    simp only [imp_false] at *
    simp only [true_iff]
    omega
  all_goals
    rename_i e
    simp [e]

end Sys2Proof

namespace Sys2Proof.Machine

variable {s : State}

/-! ## What a fetch sees (R66) -/

/-- A shorter read is the beginning of a longer one. -/
theorem take_readBytes (m : Memory) (a : Nat) {k n : Nat} (h : k ≤ n) :
    (m.readBytes a n).take k = m.readBytes a k := by
  obtain ⟨d, rfl⟩ := Nat.exists_eq_add_of_le h
  rw [readBytes_add, List.take_left' (length_readBytes m a k)]

/-- A read of at least one byte, its first byte apart. -/
theorem readBytes_of_pos (m : Memory) (a : Nat) {n : Nat} (h : 0 < n) :
    m.readBytes a n = m.read a :: m.readBytes (a + 1) (n - 1) := by
  cases n with
  | zero => cases h
  | succ n => rfl

/-- Beyond memory a fetch sees nothing. -/
theorem fetchWindow_beyond (h : 65536 ≤ s.pc.toNat) : s.fetchWindow = [] := by
  rw [State.fetchWindow, Config.memSize, Nat.sub_eq_zero_of_le h]
  rfl

/-- In memory a fetch sees the byte at pc and up to six bytes after it. -/
theorem fetchWindow_inside (h : s.pc.toNat < 65536) :
    s.fetchWindow = s.mem.read s.pc.toNat :: s.mem.readBytes (s.pc.toNat + 1) (min 6 (65535 - s.pc.toNat)) := by
  have hn : min maxWidth (Config.memSize - s.pc.toNat) - 1 = min 6 (65535 - s.pc.toNat) := by
    simp only [maxWidth, Config.memSize]
    omega
  rw [State.fetchWindow, readBytes_of_pos _ _ (by simp only [maxWidth, Config.memSize]; omega), hn]

/-! ## A step, by what the decoder answers (R66, R79) -/

theorem step_of_decode_ok {i : Instr} {rest : List Byte} (hs : s.state = .running)
    (hd : decode s.fetchWindow = .ok (i, rest)) : step s = exec i s := by
  rw [step_running hs, hd]

/-- A failed decode is the step's fault, of the kind and at the address that the decoder's refusal stands for. -/
theorem stepFaults_of_decode_error {e : DecodeError} {k : ErrorKind} {a : Nat} (hs : s.state = .running)
    (hd : decode s.fetchWindow = .error e) (hr : s.raiseDecode e = s.raise k a) : StepFaults s k a := by
  rw [StepFaults, step_running hs, hd, ← raise_eq_faultedState, ← hr]

/-- Check (1): pc beyond memory. -/
theorem stepFaults_of_beyond (hs : s.state = .running) (hpc : 65536 ≤ s.pc.toNat) :
    StepFaults s .outOfBounds s.pc.toNat :=
  stepFaults_of_decode_error hs (by rw [fetchWindow_beyond hpc]; rfl) rfl

/-- Check (2): a byte at pc that is no opcode. -/
theorem stepFaults_of_unlisted (hs : s.state = .running) (hpc : s.pc.toNat < 65536)
    (hrow : opcodeRow (s.mem.read s.pc.toNat) = none) : StepFaults s .invalidOpcode 0 :=
  stepFaults_of_decode_error hs (by rw [fetchWindow_inside hpc, decode_invalid _ hrow]) rfl

/-- Checks (3) and (4), and the instruction that runs if they pass: what a step does at an opcode of the map. -/
theorem step_at_opcode {row : Row} (hs : s.state = .running) (hpc : s.pc.toNat < 65536)
    (hrow : opcodeRow (s.mem.read s.pc.toNat) = some row) :
    if 65536 < s.pc.toNat + row.format.width then StepFaults s .outOfBounds s.pc.toNat
    else if operandsOk row.format.operands (s.mem.readBytes (s.pc.toNat + 1) (row.format.width - 1)) = false then
      StepFaults s .malformedOperand 0
    else ∃ i, encode i = s.mem.readBytes s.pc.toNat row.format.width ∧ i.format = row.format ∧ step s = exec i s := by
  have hdec := decode_cons (s.mem.readBytes (s.pc.toNat + 1) (min 6 (65535 - s.pc.toNat))) hrow
  rw [← fetchWindow_inside hpc] at hdec
  have hmax : row.format.width ≤ 7 := width_le_maxWidth row.format
  have hform := parse_form hrow (s.mem.readBytes (s.pc.toNat + 1) (min 6 (65535 - s.pc.toNat)))
  rw [ParseForm, length_readBytes] at hform
  rcases hform with ⟨hshort, hparse⟩ | ⟨hlen, hbad, hparse⟩ | ⟨hlen, hok, i, henc, hfmt, hparse⟩
  · rw [if_pos (by omega)]
    exact stepFaults_of_decode_error hs (hdec.trans hparse) rfl
  · rw [take_readBytes _ _ hlen] at hbad
    rw [if_neg (by omega), if_pos hbad]
    exact stepFaults_of_decode_error hs (hdec.trans hparse) rfl
  · rw [take_readBytes _ _ hlen] at hok henc
    rw [if_neg (by omega), if_neg (by simp [hok])]
    exact ⟨i, henc.trans (readBytes_of_pos _ _ (width_pos _)).symm, hfmt, step_of_decode_ok hs (hdec.trans hparse)⟩

/-- Settles O4: the checks on pc and on the opcode byte (R66) have a lemma each, and `step_at_opcode` does the rest. -/
theorem fetchChecksInOrder : Obligations.FetchChecksInOrder := by
  intro s hs
  split
  · rename_i hpc
    exact stepFaults_of_beyond hs (by omega)
  · rename_i hpc
    have hpc : s.pc.toNat < 65536 := by omega
    split
    · rename_i hrow
      exact stepFaults_of_unlisted hs hpc hrow
    · rename_i row hrow
      exact step_at_opcode hs hpc hrow

/-- Settles O5: the ranges from the opcode map, the count by evaluating the map on the 256 bytes, the fault from check
(2) of R66. -/
theorem unlistedOpcodesFault : Obligations.UnlistedOpcodesFault :=
  ⟨opcodeRow_eq_none_iff, rfl, fun _ => stepFaults_of_unlisted⟩

end Sys2Proof.Machine
end

section
/-! PROOFS. The engine (spec/40_engine.md R78, R85 to R93): which states have a step, what each ALU function writes, the
arithmetic of the truncated division, and the instructions of R99 to R120 in all their shapes. -/

namespace Sys2Proof.Machine

variable {i : Instr} {s : State} {rd : RegIdx} {a b : Word}

/-- Settles O8: a step that has a next state was taken in Running (`step_cases`). -/
theorem onlyRunningHasAStep : Obligations.OnlyRunningHasAStep :=
  fun _ hs _ h => hs (step_cases h).1

/-! ## The bytes of the three ALU shapes (R60 to R63) -/

theorem codeBytes_rr (op : Byte) {d e : RegIdx} (h : encode i = [op, regByte d, regByte e]) :
    codeBytes i = [op.toNat, d.val, e.val] := by
  simp [codeBytes, h]

theorem codeBytes_rrr (op : Byte) {d e g : RegIdx} (h : encode i = [op, regByte d, regByte e, regByte g]) :
    codeBytes i = [op.toNat, d.val, e.val, g.val] := by
  simp [codeBytes, h]

theorem codeBytes_rri (op : Byte) {d e : RegIdx} {v : Word} (h : encode i = op :: regByte d :: regByte e :: immBytes v) :
    codeBytes i = [op.toNat, d.val, e.val] ++ immNats v := by
  simp [codeBytes, h]

/-! ## Results and flags (R83, R84) -/

/-- An instruction that writes a result with the given C and V. -/
theorem aluOut_effect (f : Format) {r : Word} {c v : Bool} {C V : Prop}
    (h : exec i s = .next (s.writeAlu rd (aluOut r c v) f)) (hc : c = true ↔ C) (hv : v = true ↔ V) :
    AluEffect i s rd r C V f.width :=
  writeAlu_effect h (flagsOf_are r hc hv)

/-- An instruction that writes a result and clears C and V. -/
theorem aluOut_clear_effect (f : Format) {r : Word} (h : exec i s = .next (s.writeAlu rd (aluOut r false false) f)) :
    AluEffect i s rd r False False f.width :=
  aluOut_effect f h (iff_of_eq Bool.false_eq_true) (iff_of_eq Bool.false_eq_true)

/-- w(n) of a natural number (R8). -/
theorem wrap_natCast (n : Nat) : wrap n = BitVec.ofNat 24 n := BitVec.ofInt_natCast 24 n

/-! ## Addition, subtraction, multiplication (R85 to R87) -/

theorem aluAdd_effect (f : Format) (h : exec i s = .next (s.writeAlu rd (aluAdd a b) f)) :
    AluEffect i s rd (BitVec.ofNat 24 (a.toNat + b.toNat)) (2 ^ 24 ≤ a.toNat + b.toNat)
      (OutOfSigned (a.toInt + b.toInt)) f.width := by
  rw [← wrap_natCast]
  exact aluOut_effect f h decide_eq_true_iff (ovf_iff _)

theorem aluSub_effect (f : Format) (h : exec i s = .next (s.writeAlu rd (aluSub a b) f)) :
    AluEffect i s rd (BitVec.ofInt 24 ((a.toNat : Int) - b.toNat)) (a.toNat < b.toNat)
      (OutOfSigned (a.toInt - b.toInt)) f.width :=
  aluOut_effect f h decide_eq_true_iff (ovf_iff _)

/-- The low word of a product is the same for the unsigned and the signed views (R87). -/
theorem ofNat_mul_toNat_eq_ofInt_mul_toInt (a b : Word) :
    (BitVec.ofNat 24 (a.toNat * b.toNat) : Word) = BitVec.ofInt 24 (a.toInt * b.toInt) := by
  rw [BitVec.ofNat_mul, BitVec.ofInt_mul, BitVec.ofNat_toNat, BitVec.ofNat_toNat, BitVec.ofInt_toInt, BitVec.ofInt_toInt,
    BitVec.setWidth_eq, BitVec.setWidth_eq]

theorem aluMul_effect (f : Format) (h : exec i s = .next (s.writeAlu rd (aluMul a b) f)) :
    AluEffect i s rd (BitVec.ofNat 24 (a.toNat * b.toNat)) (2 ^ 24 ≤ a.toNat * b.toNat)
        (OutOfSigned (a.toInt * b.toInt)) f.width ∧
      (BitVec.ofNat 24 (a.toNat * b.toNat) : Word) = BitVec.ofInt 24 (a.toInt * b.toInt) := by
  refine ⟨?_, ofNat_mul_toNat_eq_ofInt_mul_toInt a b⟩
  rw [← wrap_natCast]
  exact aluOut_effect f h decide_eq_true_iff (ovf_iff _)

/-- Settles O13: every shape runs add(a, b) of R85 on its two sources. -/
theorem additionsWriteSum : Obligations.AdditionsWriteSum := fun _ =>
  ⟨fun _ _ _ => ⟨codeBytes_rrr 0x10 rfl, aluAdd_effect .rrr rfl⟩,
    fun _ _ _ => ⟨codeBytes_rri 0x18 rfl, aluAdd_effect .rri rfl⟩,
    fun _ _ => ⟨codeBytes_rr 0x20 rfl, aluAdd_effect .rr rfl⟩⟩

/-- Settles O14: every shape runs sub(a, b) of R86 on its two sources. -/
theorem subtractionsWriteDifference : Obligations.SubtractionsWriteDifference := fun _ =>
  ⟨fun _ _ _ => ⟨codeBytes_rrr 0x11 rfl, aluSub_effect .rrr rfl⟩,
    fun _ _ _ => ⟨codeBytes_rri 0x19 rfl, aluSub_effect .rri rfl⟩,
    fun _ _ => ⟨codeBytes_rr 0x21 rfl, aluSub_effect .rr rfl⟩⟩

/-- Settles O15: every shape runs mul(a, b) of R87 on its two sources. -/
theorem multiplicationsWriteProduct : Obligations.MultiplicationsWriteProduct := fun _ =>
  ⟨fun _ _ _ => ⟨codeBytes_rrr 0x12 rfl, aluMul_effect .rrr rfl⟩,
    fun _ _ _ => ⟨codeBytes_rri 0x1A rfl, aluMul_effect .rri rfl⟩,
    fun _ _ => ⟨codeBytes_rr 0x22 rfl, aluMul_effect .rr rfl⟩⟩

/-! ## The truncated division on words (R88, R89) -/

/-- The signed view of a word (R8). -/
theorem toInt_bounds (a : Word) : -8388608 ≤ a.toInt ∧ a.toInt ≤ 8388607 := by
  have hlo := BitVec.le_toInt a
  have hhi := BitVec.toInt_lt (x := a)
  omega

theorem toInt_ne_zero (h : b.toNat ≠ 0) : b.toInt ≠ 0 := fun hb =>
  h (by rw [BitVec.toInt_inj.mp (hb.trans (BitVec.toInt_zero (w := 24)).symm)]; rfl)

/-- What R89 subtracts from the dividend leaves the remainder of the truncated division. -/
theorem sub_quotient_mul (a b : Word) : a.toInt - a.toInt.tdiv b.toInt * b.toInt = a.toInt.tmod b.toInt := by
  rw [Int.tmod_def, Int.mul_comm]

/-- A remainder is 0 or has the dividend's sign (R89). -/
theorem tmod_sign (m n : Int) : m.tmod n = 0 ∨ (0 < m.tmod n ↔ 0 < m) := by
  have hsign := Int.sign_tmod m n
  split at hsign
  · exact .inl (Int.sign_eq_zero_iff_zero.mp hsign)
  · exact .inr (by rw [← Int.sign_eq_one_iff_pos, hsign, Int.sign_eq_one_iff_pos])

/-- A remainder is smaller in size than the divisor (R89). -/
theorem natAbs_tmod_lt (m : Int) {n : Int} (hn : n ≠ 0) : (m.tmod n).natAbs < n.natAbs := by
  rw [Int.natAbs_tmod]
  exact Nat.mod_lt _ (Int.natAbs_pos.mpr hn)

/-- A quotient is in size at most the dividend, so it leaves the signed words at 2^23 alone; there the divisor's size is 1
and the signs differ. -/
theorem outOfSigned_quotient_iff (h : b.toNat ≠ 0) :
    OutOfSigned (a.toInt.tdiv b.toInt) ↔ a.toInt = -8388608 ∧ b.toInt = -1 := by
  constructor
  · intro hout
    have ha := toInt_bounds a
    have hle := Int.natAbs_tdiv_le_natAbs a.toInt b.toInt
    unfold OutOfSigned at hout
    have hmin : a.toInt = -8388608 := by omega
    have hquot : a.toInt.tdiv b.toInt = 8388608 := by omega
    have hrem := natAbs_tmod_lt a.toInt (toInt_ne_zero h)
    have hsum := Int.tdiv_mul_add_tmod a.toInt b.toInt
    rw [hquot] at hsum
    omega
  · rintro ⟨ha, hb⟩
    rw [ha, hb]
    exact .inr (by decide)

/-- What is smaller in size than a word's signed view is a signed word. -/
theorem not_outOfSigned_of_natAbs_lt {m : Int} (h : m.natAbs < b.toInt.natAbs) : ¬OutOfSigned m := by
  have hb := toInt_bounds b
  unfold OutOfSigned
  omega

/-! ## Division and remainder (R88, R89) -/

/-- The fault of a zero divisor (R102, R103). -/
theorem faultsWith_of_divisor_zero {body : Result} (h : exec i s = s.guardDivisor b body) (hb : b.toNat = 0) :
    FaultsWith i s .divisionByZero 0 :=
  h.trans (guardDivisor_zero body hb)

theorem aluDiv_effect (f : Format) (h : exec i s = s.guardDivisor b (.next (s.writeAlu rd (aluDiv a b) f))) :
    (b.toNat = 0 → FaultsWith i s .divisionByZero 0) ∧
    (b.toNat ≠ 0 →
      AluEffect i s rd (BitVec.ofInt 24 (a.toInt.tdiv b.toInt)) False (OutOfSigned (a.toInt.tdiv b.toInt)) f.width ∧
      (OutOfSigned (a.toInt.tdiv b.toInt) ↔ a.toInt = -8388608 ∧ b.toInt = -1)) :=
  ⟨faultsWith_of_divisor_zero h, fun hb =>
    ⟨aluOut_effect f (h.trans (guardDivisor_ok _ hb)) (iff_of_eq Bool.false_eq_true) (ovf_iff _),
      outOfSigned_quotient_iff hb⟩⟩

theorem aluMod_effect (f : Format) (h : exec i s = s.guardDivisor b (.next (s.writeAlu rd (aluMod a b) f))) :
    (b.toNat = 0 → FaultsWith i s .divisionByZero 0) ∧
    (b.toNat ≠ 0 → ∃ m : Int, m = a.toInt - a.toInt.tdiv b.toInt * b.toInt ∧
      AluEffect i s rd (BitVec.ofInt 24 m) False False f.width ∧
      (m = 0 ∨ (0 < m ↔ 0 < a.toInt)) ∧ m.natAbs < b.toInt.natAbs ∧ ¬OutOfSigned m) := by
  refine ⟨faultsWith_of_divisor_zero h, fun hb =>
    ⟨_, rfl, aluOut_clear_effect f (h.trans (guardDivisor_ok _ hb)), ?_⟩⟩
  have hlt := natAbs_tmod_lt a.toInt (toInt_ne_zero hb)
  rw [sub_quotient_mul]
  exact ⟨tmod_sign _ _, hlt, not_outOfSigned_of_natAbs_lt hlt⟩

/-- Settles O16: every shape guards its divisor and runs div(a, b) of R88. -/
theorem divisionsWriteQuotient : Obligations.DivisionsWriteQuotient := fun _ =>
  ⟨fun _ _ _ => ⟨codeBytes_rrr 0x13 rfl, aluDiv_effect .rrr rfl⟩,
    fun _ _ _ => ⟨codeBytes_rri 0x1B rfl, aluDiv_effect .rri rfl⟩,
    fun _ _ => ⟨codeBytes_rr 0x23 rfl, aluDiv_effect .rr rfl⟩⟩

/-- Settles O17: every shape guards its divisor and runs mod(a, b) of R89. -/
theorem moduloWritesRemainder : Obligations.ModuloWritesRemainder := fun _ =>
  ⟨fun _ _ _ => ⟨codeBytes_rrr 0x14 rfl, aluMod_effect .rrr rfl⟩,
    fun _ _ _ => ⟨codeBytes_rri 0x1C rfl, aluMod_effect .rri rfl⟩,
    fun _ _ => ⟨codeBytes_rr 0x24 rfl, aluMod_effect .rr rfl⟩⟩

/-! ## Logic and shifts (R90 to R93) -/

/-- Settles O20: the result is the bitwise operation on words (R90, R91), read bit by bit. -/
theorem logicWritesBits : Obligations.LogicWritesBits := by
  refine fun s => ⟨fun rd ra rb => ⟨codeBytes_rrr 0x30 rfl, _, aluOut_clear_effect .rrr rfl, fun k _ => ?_⟩,
    fun rd ra rb => ⟨codeBytes_rrr 0x31 rfl, _, aluOut_clear_effect .rrr rfl, fun k _ => ?_⟩,
    fun rd ra rb => ⟨codeBytes_rrr 0x32 rfl, _, aluOut_clear_effect .rrr rfl, fun k _ => ?_⟩,
    fun rd rs => ⟨codeBytes_rr 0x33 rfl, _, aluOut_clear_effect .rr rfl, fun k hk => ?_, ?_⟩⟩
  · exact BitVec.getLsbD_and
  · exact BitVec.getLsbD_or
  · exact BitVec.getLsbD_xor
  · rw [BitVec.getLsbD_not, decide_eq_true hk, Bool.true_and]
  · exact BitVec.toNat_not

theorem aluShl_effect (f : Format) (h : exec i s = .next (s.writeAlu rd (aluShl a b) f)) :
    AluEffect i s rd (if b.toNat < 24 then BitVec.ofNat 24 (a.toNat * 2 ^ b.toNat) else 0) False False f.width := by
  rw [← wrap_natCast, Nat.cast_mul, Nat.cast_pow]
  exact aluOut_clear_effect f h

theorem aluShr_effect (f : Format) (h : exec i s = .next (s.writeAlu rd (aluShr a b) f)) :
    AluEffect i s rd (if b.toNat < 24 then BitVec.ofNat 24 (a.toNat / 2 ^ b.toNat) else 0) False False f.width := by
  rw [← wrap_natCast, Int.natCast_ediv, Nat.cast_pow]
  exact aluOut_clear_effect f h

/-- Settles O21: SHL and SHR run shl(a, b) and shr(a, b) of R92 and R93. -/
theorem shiftsWriteShifted : Obligations.ShiftsWriteShifted := fun _ =>
  ⟨fun _ _ _ => ⟨codeBytes_rrr 0x34 rfl, aluShl_effect .rrr rfl⟩,
    fun _ _ _ => ⟨codeBytes_rrr 0x35 rfl, aluShr_effect .rrr rfl⟩⟩

end Sys2Proof.Machine
end

section
/-! PROOFS. Load-immediate and data movement (spec/41_load_move.md R96 to R98): what writing one register and advancing
does, and what the two writes of SWAP leave in the registers. -/

namespace Sys2Proof.Machine

variable {i : Instr} {s : State}

/-- The bytes of a register and an immediate (R60, R61). -/
theorem codeBytes_ri (op : Byte) {d : RegIdx} {v : Word} (h : encode i = op :: regByte d :: immBytes v) :
    codeBytes i = [op.toNat, d.val] ++ immNats v := by
  simp [codeBytes, h]

/-! ## One register written (R96, R97) -/

/-- A register write touches that register alone (R11, R30). -/
theorem onlyReg_setReg_advance (s : State) (rd : RegIdx) (v : Word) (f : Format) :
    OnlyReg s ((s.setReg rd v).advance f) rd v :=
  ⟨reg_setReg_same s rd v, fun j hj => reg_setReg_ne s rd j v hj⟩

/-- An instruction that writes one register and advances does nothing else. -/
theorem setReg_effect {rd : RegIdx} {v : Word} (f : Format) (h : exec i s = .next ((s.setReg rd v).advance f)) :
    LoadEffect i s rd v s.sp.toNat f.width :=
  ⟨_, h, onlyReg_setReg_advance s rd v f, rfl, rfl, fun _ => rfl, rfl, rfl, sameRest_refl s⟩

/-- Settles O10: LOADI writes one register, its immediate, at every state. -/
theorem loadiWritesImmediate : Obligations.LoadiWritesImmediate := fun _ _ _ =>
  ⟨codeBytes_ri 0x02 rfl, setReg_effect .ri rfl⟩

/-- Settles O11: MOV writes one register, what the source holds, at every state. -/
theorem movCopiesRegister : Obligations.MovCopiesRegister := fun _ _ _ =>
  ⟨codeBytes_rr 0x03 rfl, setReg_effect .rr rfl⟩

/-! ## Two registers exchanged (R98) -/

/-- The first register of an exchange holds what the second held; where the two are one register, the second write puts
back the same value. -/
theorem reg_exchange_left (s : State) (ra rb : RegIdx) :
    ((s.setReg ra (s.reg rb)).setReg rb (s.reg ra)).reg ra = s.reg rb := by
  by_cases hab : ra = rb
  · rw [hab, reg_setReg_same]
  · rw [reg_setReg_ne _ _ _ _ hab, reg_setReg_same]

theorem reg_exchange_right (s : State) (ra rb : RegIdx) :
    ((s.setReg ra (s.reg rb)).setReg rb (s.reg ra)).reg rb = s.reg ra :=
  reg_setReg_same _ rb _

theorem reg_exchange_other (s : State) {ra rb j : RegIdx} (ha : j ≠ ra) (hb : j ≠ rb) :
    ((s.setReg ra (s.reg rb)).setReg rb (s.reg ra)).reg j = s.reg j := by
  rw [reg_setReg_ne _ _ _ _ hb, reg_setReg_ne _ _ _ _ ha]

/-- Settles O12: SWAP is the exchange of its two registers, at every state, for one register too. -/
theorem swapExchangesRegisters : Obligations.SwapExchangesRegisters := fun s ra rb =>
  ⟨codeBytes_rr 0x04 rfl, _, rfl, reg_exchange_left s ra rb, reg_exchange_right s ra rb,
    fun _ ha hb => reg_exchange_other s ha hb, rfl, rfl, fun _ => rfl, ⟨rfl, rfl⟩, sameRest_refl s⟩

end Sys2Proof.Machine
end

section
/-! PROOFS. Compare (spec/42_arithmetic.md R114): the flags sub(a, b) answers, written without its result. -/

namespace Sys2Proof.Machine

/-- The flags of R86: C is the borrow, V the signed overflow of the difference. -/
theorem aluSub_flagsAre (a b : Word) :
    FlagsAre (aluSub a b).f (BitVec.ofInt 24 ((a.toNat : Int) - b.toNat)) (a.toNat < b.toNat)
      (OutOfSigned (a.toInt - b.toInt)) :=
  flagsOf_are _ decide_eq_true_iff (ovf_iff _)

/-- A register keeps its value where flags are written and pc advances (R30). -/
theorem sameRegs_setFlags_advance (s : State) (g : Flags) (f : Format) : SameRegs s ((s.setFlags g).advance f) :=
  fun r => (reg_advance _ r f).trans (reg_setFlags s r g)

/-- Settles O19: CMP writes the flags of sub(a, b) and advances; what it does not write is the state's own. -/
theorem cmpWritesFlagsOnly : Obligations.CmpWritesFlagsOnly := fun s ra rb =>
  ⟨codeBytes_rr 0x28 rfl, _, rfl, aluSub_flagsAre (s.reg ra) (s.reg rb), sameRegs_setFlags_advance s _ .rr, rfl,
    fun _ => rfl, ⟨rfl, rfl⟩, sameRest_refl s⟩

end Sys2Proof.Machine
end

section
/-! PROOFS. The stack (spec/44_stack.md R121 to R123): what is on top after a push and where a pop puts sp back, and the
three stack instructions within their bounds. -/

namespace Sys2Proof.Machine

variable {i : Instr} {s : State}

/-- The bytes of one register operand (R60). -/
theorem codeBytes_r (op : Byte) {d : RegIdx} (h : encode i = [op, regByte d]) : codeBytes i = [op.toNat, d.val] := by
  simp [codeBytes, h]

/-! ## The word on top (R21, R33) -/

/-- From an sp at most 0x10000 a pushed word lies inside memory (R121). -/
theorem pushAddr_add_three_le (htop : s.sp.toNat ≤ 65536) : s.pushAddr + 3 ≤ 65536 := by
  rw [pushAddr_eq]
  omega

theorem top_eq_wordAt (s : State) : s.top = wordAt s s.sp.toNat := readWord_eq_wordAt s _

/-- The word just pushed is the top of the stack. -/
theorem top_pushed (v : Word) (hm : s.mem.wf = true) (h : s.pushAddr + 3 ≤ 65536) : (s.pushed v).top = v := by
  rw [State.top, pushed_sp_toNat]
  exact readWord_writeWord s v hm h

/-- A pop undoes what a push did to sp. -/
theorem popped_pushed_sp (v : Word) (h : 3 ≤ s.sp.toNat) : (s.pushed v).popped.sp = s.sp := by
  rw [popped_sp, pushed_sp_toNat, Config.wordBytes, Nat.sub_add_cancel h, BitVec.ofNat_toNat, BitVec.setWidth_eq]

/-! ## PUSH (R121) -/

theorem execPush_ok (rs : RegIdx) (h : s.stackLimit.toNat + 3 ≤ s.sp.toNat) (htop : s.sp.toNat ≤ 65536) :
    exec (.push rs) s = .next ((s.pushed (s.reg rs)).advance .r) :=
  push_ok (s.reg rs) (fun t => .next (t.advance .r)) h htop

theorem execPush_full (rs : RegIdx) (h : s.sp.toNat < s.stackLimit.toNat + 3) :
    FaultsWith (.push rs) s .stackOverflow 0 := by
  rw [FaultsWith, ← raise_eq_faultedState]
  exact push_full (s.reg rs) (fun t => .next (t.advance .r)) h

/-- An instruction that pushes a word and advances stores it at sp − 3 and moves sp there. -/
theorem pushed_effect {v : Word} (f : Format) (hi : exec i s = .next ((s.pushed v).advance f)) (hm : s.mem.wf = true)
    (h : s.pushAddr + 3 ≤ 65536) :
    StoreEffect i s s.pushAddr v (s.sp.toNat - 3) s.depth (s.pc + BitVec.ofNat 24 f.width) :=
  ⟨_, hi, holdsWord_writeWord v hm h, fun _ hk => read_writeWord_outside s v hk, fun _ => rfl, rfl,
    pushed_sp_toNat s v, rfl, rfl, sameRest_refl s⟩

/-- Settles O22: the overflow guard decides, and a push inside memory writes its word at sp − 3. -/
theorem pushStoresWord : Obligations.PushStoresWord := fun _ rs =>
  ⟨codeBytes_r 0x40 rfl, execPush_full rs, fun hm h htop =>
    pushed_effect .r (execPush_ok rs h htop) hm (pushAddr_add_three_le htop)⟩

/-! ## POP and PEEK (R122, R123) -/

/-- An instruction on the top of an empty stack faults (R33). -/
theorem faultsWith_of_empty_stack {body : Result} (hi : exec i s = s.withTop body) (h : 65536 < s.sp.toNat + 3) :
    FaultsWith i s .stackUnderflow 0 := by
  rw [FaultsWith, ← raise_eq_faultedState]
  exact hi.trans (withTop_empty body h)

theorem execPop_ok (rd : RegIdx) (h : s.sp.toNat + 3 ≤ 65536) :
    exec (.pop rd) s = .next ((s.popped.setReg rd s.top).advance .r) :=
  withTop_ok _ h

theorem execPeek_ok (rd : RegIdx) (h : s.sp.toNat + 3 ≤ 65536) :
    exec (.peek rd) s = .next ((s.setReg rd s.top).advance .r) :=
  withTop_ok _ h

theorem execPop_effect (rd : RegIdx) (h : s.sp.toNat + 3 ≤ 65536) :
    LoadEffect (.pop rd) s rd (wordAt s s.sp.toNat) (s.sp.toNat + 3) 2 := by
  rw [← top_eq_wordAt]
  exact ⟨_, execPop_ok rd h, onlyReg_setReg_advance s.popped rd s.top .r, rfl, rfl, fun _ => rfl,
    popped_sp_toNat s ((canPop_iff s).mpr h), rfl, sameRest_refl s⟩

theorem execPeek_effect (rd : RegIdx) (h : s.sp.toNat + 3 ≤ 65536) :
    LoadEffect (.peek rd) s rd (wordAt s s.sp.toNat) s.sp.toNat 2 := by
  rw [← top_eq_wordAt]
  exact setReg_effect .r (execPeek_ok rd h)

/-- A PUSH leaves room for a POP, which takes the pushed word and puts sp back (R121, R122). -/
theorem execPop_after_push (rs rd : RegIdx) (hm : s.mem.wf = true) (h : s.stackLimit.toNat + 3 ≤ s.sp.toNat)
    (htop : s.sp.toNat ≤ 65536) :
    ∃ t u, exec (.push rs) s = .next t ∧ exec (.pop rd) t = .next u ∧ OnlyReg s u rd (s.reg rs) ∧ u.sp = s.sp ∧
      u.flags = s.flags ∧ u.depth = s.depth := by
  have hfit := pushAddr_add_three_le htop
  have hpop : ((s.pushed (s.reg rs)).advance .r).sp.toNat + 3 ≤ 65536 := by
    rw [advance_sp, pushed_sp_toNat]
    exact hfit
  have hword : ((s.pushed (s.reg rs)).advance .r).top = s.reg rs := top_pushed (s.reg rs) hm hfit
  have hpopped := execPop_ok rd hpop
  rw [hword] at hpopped
  exact ⟨_, _, execPush_ok rs h htop, hpopped, onlyReg_setReg_advance _ rd (s.reg rs) .r,
    popped_pushed_sp (s.reg rs) (by omega), rfl, rfl⟩

/-- Settles O23: the underflow guard decides, a pop inside memory loads the top word and moves sp, and after a push that
word is the pushed one. -/
theorem popLoadsWord : Obligations.PopLoadsWord := fun _ rd =>
  ⟨codeBytes_r 0x41 rfl, faultsWith_of_empty_stack rfl, execPop_effect rd, fun rs => execPop_after_push rs rd⟩

/-- Settles O24: PEEK has POP's guard, and writes one register alone. -/
theorem peekCopiesTop : Obligations.PeekCopiesTop := fun _ rd =>
  ⟨codeBytes_r 0x42 rfl, faultsWith_of_empty_stack rfl, execPeek_effect rd⟩

end Sys2Proof.Machine
end

section
/-! PROOFS. Memory access (spec/45_memory_access.md R124 to R127): the four instructions are one load and one store, each
at two operand addresses, and each split by its bounds check. -/

namespace Sys2Proof.Machine

variable {i : Instr} {s : State} {a : Nat}

/-! ## The bytes of the two indexed forms (R60, R62) -/

theorem codeBytes_rar (op : Byte) {d e : RegIdx} {t : Addr}
    (h : encode i = op :: regByte d :: (addrBytes t ++ [regByte e])) :
    codeBytes i = [op.toNat, d.val] ++ addrNats t ++ [e.val] := by
  simp [codeBytes, h]

theorem codeBytes_arr (op : Byte) {d e : RegIdx} {t : Addr}
    (h : encode i = op :: (addrBytes t ++ [regByte d, regByte e])) :
    codeBytes i = [op.toNat] ++ addrNats t ++ [d.val, e.val] := by
  simp [codeBytes, h]

/-! ## Operand addresses -/

/-- The last address a word fits at is 65533 (R42). -/
theorem word_fits_iff (a : Nat) : a + 3 ≤ 65536 ↔ a ≤ 65533 := by
  omega

theorem word_beyond_iff (a : Nat) : 65536 < a + 3 ↔ 65533 < a := by
  omega

theorem indirect_eq (s : State) (ra : RegIdx) : s.indirect ra = (s.reg ra).toNat := rfl

theorem indexed_eq (s : State) (base : Addr) (ri : RegIdx) :
    s.indexed base ri = base.toNat + 3 * (s.reg ri).toNat := rfl

/-! ## LOAD and ALOAD (R124, R126) -/

/-- An instruction that loads a word: beyond memory it faults with the address, inside it writes one register. -/
theorem loadTo_effect {rd : RegIdx} (f : Format) (hi : exec i s = s.loadTo rd a f) :
    (65536 < a + 3 → FaultsWith i s .outOfBounds a) ∧
    (a + 3 ≤ 65536 → LoadEffect i s rd (wordAt s a) s.sp.toNat f.width) :=
  ⟨fun h => hi.trans (loadTo_beyond h), fun h => setReg_effect f (hi.trans (loadTo_ok h))⟩

/-- Settles O25: LOAD loads from the address its register holds. -/
theorem loadReadsWord : Obligations.LoadReadsWord := by
  intro s rd ra
  have heffect := loadTo_effect (i := .load rd ra) (s := s) .rr rfl
  rw [indirect_eq, word_beyond_iff, word_fits_iff] at heffect
  exact ⟨codeBytes_rr 0x48 rfl, heffect⟩

/-- Settles O27: ALOAD loads from its base plus three times its index. -/
theorem aloadReadsElement : Obligations.AloadReadsElement := by
  intro s rd base ri
  rw [← indexed_eq]
  exact ⟨codeBytes_rar 0x4A rfl, loadTo_effect .rar rfl⟩

/-! ## STORE and ASTORE (R125, R127) -/

/-- An instruction that stores a word: beyond memory it faults with the address, inside canonical memory it writes the
three bytes. -/
theorem storeAt_effect {v : Word} (f : Format) (hi : exec i s = s.storeAt a v f) :
    (65536 < a + 3 → FaultsWith i s .outOfBounds a) ∧
    (s.mem.wf = true → a + 3 ≤ 65536 →
      StoreEffect i s a v s.sp.toNat s.depth (s.pc + BitVec.ofNat 24 f.width)) :=
  ⟨fun h => hi.trans (storeAt_beyond h), fun hm h =>
    ⟨_, hi.trans (storeAt_ok h), holdsWord_writeWord v hm h, fun _ hk => read_writeWord_outside s v hk,
      fun _ => rfl, rfl, rfl, rfl, rfl, sameRest_refl s⟩⟩

/-- Settles O26: STORE stores to the address its register holds. -/
theorem storeWritesWord : Obligations.StoreWritesWord := by
  intro s rs ra
  have heffect := storeAt_effect (i := .store rs ra) (s := s) .rr rfl
  rw [indirect_eq, word_beyond_iff, word_fits_iff] at heffect
  exact ⟨codeBytes_rr 0x49 rfl, heffect⟩

/-- Settles O28: ASTORE stores to its base plus three times its index. -/
theorem astoreWritesElement : Obligations.AstoreWritesElement := by
  intro s base ri rs
  rw [← indexed_eq]
  exact ⟨codeBytes_arr 0x4B rfl, storeAt_effect .arr rfl⟩

end Sys2Proof.Machine
end

section
/-! PROOFS. Control transfer (spec/46_control.md R128 to R136): a jump writes pc alone, the six conditions are those of
R95, and CALL and RET check the depth and then the stack. -/

namespace Sys2Proof.Machine

variable {i : Instr} {s : State}

/-- The bytes of an absolute target (R62). -/
theorem codeBytes_a (op : Byte) {t : Addr} (h : encode i = op :: addrBytes t) :
    codeBytes i = [op.toNat] ++ addrNats t := by
  simp [codeBytes, h]

/-! ## Jumps (R128 to R134) -/

/-- A jump to a 16-bit target goes to its zero extension. -/
theorem jump_zext_effect {target : Addr} (hi : exec i s = .next (s.jump (zext target))) :
    JumpEffect i s (BitVec.ofNat 24 target.toNat) := by
  rw [JumpEffect, ← zext_eq_ofNat]
  exact hi

/-- Settles O32: JMP is a jump to its target, whatever the flags. -/
theorem jmpSetsPc : Obligations.JmpSetsPc := fun _ _ =>
  ⟨codeBytes_a 0x50 rfl, jump_zext_effect rfl⟩

theorem jumpIf_of_true {c : Bool} (target : Addr) (h : c = true) : s.jumpIf c target = .next (s.jump (zext target)) :=
  if_pos h

theorem jumpIf_of_not_true {c : Bool} (target : Addr) (h : ¬c = true) : s.jumpIf c target = .next (s.advance .a) :=
  if_neg h

/-- A conditional jump goes by the proposition its condition decides. -/
theorem jumpIf_effect {c : Bool} {target : Addr} {taken : Prop} (hi : exec i s = s.jumpIf c target)
    (hc : c = true ↔ taken) :
    (taken → JumpEffect i s (BitVec.ofNat 24 target.toNat)) ∧ (¬taken → JumpEffect i s (s.pc + 3)) :=
  ⟨fun h => jump_zext_effect (hi.trans (jumpIf_of_true target (hc.mpr h))),
    fun h => hi.trans (jumpIf_of_not_true target (mt hc.mp h))⟩

theorem condEq_iff (f : Flags) : condEq f = true ↔ f.z = true := Iff.rfl

theorem condNe_iff (f : Flags) : condNe f = true ↔ f.z = false := by
  simp [condNe]

theorem condGt_iff (f : Flags) : condGt f = true ↔ f.z = false ∧ f.n = f.v := by
  simp [condGt]

theorem condLt_iff (f : Flags) : condLt f = true ↔ f.n ≠ f.v := by
  simp [condLt]

theorem condGtu_iff (f : Flags) : condGtu f = true ↔ f.c = false ∧ f.z = false := by
  simp [condGtu]

theorem condLtu_iff (f : Flags) : condLtu f = true ↔ f.c = true := Iff.rfl

/-- Settles O33: the six are one conditional jump, each at its condition of R95. -/
theorem conditionalJumpsTestFlags : Obligations.ConditionalJumpsTestFlags := fun s _ =>
  ⟨⟨codeBytes_a 0x51 rfl, jumpIf_effect rfl (condEq_iff s.flags)⟩,
    ⟨codeBytes_a 0x52 rfl, jumpIf_effect rfl (condNe_iff s.flags)⟩,
    ⟨codeBytes_a 0x53 rfl, jumpIf_effect rfl (condGt_iff s.flags)⟩,
    ⟨codeBytes_a 0x54 rfl, jumpIf_effect rfl (condLt_iff s.flags)⟩,
    ⟨codeBytes_a 0x55 rfl, jumpIf_effect rfl (condGtu_iff s.flags)⟩,
    ⟨codeBytes_a 0x56 rfl, jumpIf_effect rfl (condLtu_iff s.flags)⟩⟩

/-! ## CALL (R135) -/

/-- An instruction whose first guard is false faults (R145). -/
theorem faultsWith_of_guard {c : Bool} {k : ErrorKind} {a : Nat} {body : Result} (hi : exec i s = s.guard c k a body)
    (h : c = false) : FaultsWith i s k a := by
  rw [FaultsWith, ← raise_eq_faultedState]
  exact hi.trans (guard_of_false k a body h)

theorem canCall_eq_false_iff (s : State) :
    s.canCall Config.maxStackDepth = false ↔ Config.maxStackDepth < s.depth + 1 := by
  rw [Bool.eq_false_iff, ne_eq, canCall_iff s one_le_maxStackDepth, Nat.not_le]

theorem execCall_too_deep (target : Addr) (h : Config.maxStackDepth < s.depth + 1) :
    FaultsWith (.call target) s .recursionLimit 0 :=
  faultsWith_of_guard rfl ((canCall_eq_false_iff s).mpr h)

/-- Past the depth guard a call is the push of its return address, then the jump. -/
theorem execCall_push (target : Addr) (h : s.depth + 1 ≤ Config.maxStackDepth) :
    exec (.call target) s = s.push (s.next .a) fun t => .next (t.incDepth.jump (zext target)) :=
  guard_of_true _ _ _ ((canCall_iff s one_le_maxStackDepth).mpr h)

theorem execCall_full (target : Addr) (hd : s.depth + 1 ≤ Config.maxStackDepth)
    (h : s.sp.toNat < s.stackLimit.toNat + 3) : FaultsWith (.call target) s .stackOverflow 0 := by
  rw [FaultsWith, ← raise_eq_faultedState]
  exact (execCall_push target hd).trans (push_full _ _ h)

theorem execCall_ok (target : Addr) (hd : s.depth + 1 ≤ Config.maxStackDepth)
    (h : s.stackLimit.toNat + 3 ≤ s.sp.toNat) (htop : s.sp.toNat ≤ 65536) :
    exec (.call target) s = .next ((s.pushed (s.next .a)).incDepth.jump (zext target)) :=
  (execCall_push target hd).trans (push_ok _ _ h htop)

/-- The address after a CALL, as a number modulo 2^24 (R9). -/
theorem next_a_eq_ofNat (s : State) : s.next .a = BitVec.ofNat 24 (s.pc.toNat + 3) := by
  rw [BitVec.ofNat_add, BitVec.ofNat_toNat, BitVec.setWidth_eq]
  rfl

theorem execCall_effect (target : Addr) (hm : s.mem.wf = true) (hd : s.depth + 1 ≤ Config.maxStackDepth)
    (h : s.stackLimit.toNat + 3 ≤ s.sp.toNat) (htop : s.sp.toNat ≤ 65536) :
    StoreEffect (.call target) s (s.sp.toNat - 3) (BitVec.ofNat 24 (s.pc.toNat + 3)) (s.sp.toNat - 3) (s.depth + 1)
      (BitVec.ofNat 24 target.toNat) := by
  rw [← next_a_eq_ofNat, ← zext_eq_ofNat]
  exact ⟨_, execCall_ok target hd h htop, holdsWord_writeWord _ hm (pushAddr_add_three_le htop),
    fun _ hk => read_writeWord_outside s _ hk, fun _ => rfl, rfl, pushed_sp_toNat s (s.next .a), rfl, rfl,
    sameRest_refl s⟩

/-- Settles O35: the depth guard decides first, then the overflow guard, and a call that both admit pushes its return
address, counts the depth and jumps. -/
theorem callPushesReturnAddress : Obligations.CallPushesReturnAddress := fun _ target =>
  ⟨codeBytes_a 0x58 rfl, execCall_too_deep target, execCall_full target, execCall_effect target⟩

/-! ## RET (R136) -/

theorem canReturn_eq_false_iff (s : State) : s.canReturn = false ↔ s.depth = 0 := by
  rw [Bool.eq_false_iff, ne_eq, canReturn_iff, Nat.not_lt, Nat.le_zero]

theorem execRet_depth_zero (h : s.depth = 0) : FaultsWith .ret s .stackUnderflow 0 :=
  faultsWith_of_guard rfl ((canReturn_eq_false_iff s).mpr h)

/-- Past the depth guard a return is an operation on the top of the stack. -/
theorem execRet_withTop (h : 0 < s.depth) : exec .ret s = s.withTop (.next (s.popped.decDepth.jump s.top)) :=
  guard_of_true _ _ _ ((canReturn_iff s).mpr h)

/-- On an empty stack RET faults at every depth: at depth 0 the first guard takes the same fault. -/
theorem execRet_empty (h : 65536 < s.sp.toNat + 3) : FaultsWith .ret s .stackUnderflow 0 := by
  rcases Nat.eq_zero_or_pos s.depth with hd | hd
  · exact execRet_depth_zero hd
  · exact faultsWith_of_empty_stack (execRet_withTop hd) h

theorem execRet_ok (hd : 0 < s.depth) (h : s.sp.toNat + 3 ≤ 65536) :
    exec .ret s = .next (s.popped.decDepth.jump s.top) :=
  (execRet_withTop hd).trans (withTop_ok _ h)

/-- Settles O36: the depth guard and the underflow guard take the same fault, and a return that both admit puts the top
word into pc. -/
theorem retPopsPc : Obligations.RetPopsPc := fun s =>
  ⟨rfl, execRet_depth_zero, execRet_empty, fun hd h =>
    ⟨_, execRet_ok hd h, top_eq_wordAt s, popped_sp_toNat s ((canPop_iff s).mpr h), rfl, fun _ => rfl, rfl,
      fun _ => rfl, sameRest_refl s⟩⟩

end Sys2Proof.Machine
end

section
/-! PROOFS. SYSCALL and HALT (spec/47_system.md R137 to R143): the service each id chooses, what each of the host's answers
does, and the two bounds of a string. -/

namespace Sys2Proof.Machine

variable {s : State} {id : Word} {r : RegIdx} {off : Addr}

/-! ## The service an id chooses (R137) -/

theorem exec_syscall_printInt (h : id.toNat = 0) : exec (.syscall id r off) s = s.printInt r :=
  execSyscall_eq id r off s 0 h

theorem exec_syscall_readInt (h : id.toNat = 1) : exec (.syscall id r off) s = s.readInt r :=
  execSyscall_eq id r off s 1 h

theorem exec_syscall_printStr (h : id.toNat = 2) : exec (.syscall id r off) s = s.printStr off :=
  execSyscall_eq id r off s 2 h

theorem exec_syscall_exit (h : id.toNat = 3) : exec (.syscall id r off) s = .next (s.haltWith (s.reg r)) :=
  execSyscall_eq id r off s 3 h

/-- From 4 on no id chooses a service. -/
theorem exec_syscall_unknown (h : 4 ≤ id.toNat) : exec (.syscall id r off) s = .next (s.raise .unknownId 0) := by
  obtain ⟨k, hk⟩ := Nat.exists_eq_add_of_le' h
  exact execSyscall_eq id r off s (k + 4) hk

/-! ## Printing an integer, the end of a run, unknown ids (R138, R141 to R143) -/

/-- A print changes the output trace and pc alone (R28). -/
theorem emit_advance_eq (s : State) (e : OutEvent) :
    (s.emit e).advance .ira = { s with out := s.out ++ [e], pc := s.pc + 7 } := rfl

/-- Settles O38: id 0 chooses the print of x[r], which no guard holds back. -/
theorem printIntegerEmits : Obligations.PrintIntegerEmits := by
  intro s id r off hid
  rw [exec_syscall_printInt hid, State.printInt, emit_advance_eq]

/-- Settles O42: id 3 chooses the end of the run, with x[r] as it is. -/
theorem exitHaltsWithStatus : Obligations.ExitHaltsWithStatus := fun _ _ _ _ hid =>
  exec_syscall_exit hid

/-- Settles O43: no id from 4 on chooses a service, and what is left is the fault. -/
theorem unknownSyscallFaults : Obligations.UnknownSyscallFaults := by
  intro s id r off hid
  rw [FaultsWith, ← raise_eq_faultedState]
  exact exec_syscall_unknown hid

/-- Settles O45: HALT's byte and its next state are the model's own, with no guard on the stack or the depth. -/
theorem haltEndsRun : Obligations.HaltEndsRun :=
  ⟨rfl, fun _ => rfl⟩

/-! ## Reading an integer (R139) -/

theorem readInt_of_int {n : Int} (h : s.hostAnswer = .int n) :
    s.readInt r = .next ((s.takeAnswer.setReg r (wrap n)).advance .ira) := by
  rw [State.readInt, h]

theorem readInt_of_noInput (h : s.hostAnswer = .noInput) : s.readInt r = .next (s.raise .inputUnavailable 0) := by
  rw [State.readInt, h]

theorem readInt_of_never (h : s.hostAnswer = .never) : s.readInt r = .fault .hostNeverAnswers := by
  rw [State.readInt, h]

/-- Taking an answer moves the host's fields alone: a register written after it is the only one that differs. -/
theorem onlyReg_takeAnswer_setReg_advance (s : State) (r : RegIdx) (v : Word) (f : Format) :
    OnlyReg s ((s.takeAnswer.setReg r v).advance f) r v := by
  obtain ⟨hwritten, hothers⟩ := onlyReg_setReg_advance s.takeAnswer r v f
  exact ⟨hwritten, fun j hj => (hothers j hj).trans (reg_takeAnswer s j)⟩

/-- Taking an answer and writing a register leaves memory, stack, latches and run state alone. -/
theorem takeAnswer_setReg_advance_frame (s : State) (r : RegIdx) (v : Word) (f : Format) :
    let t := (s.takeAnswer.setReg r v).advance f
    SameMem s t ∧ SameStack s t ∧ SameLatches s t ∧ SameRun s t := by
  simp [SameMem, SameStack, SameLatches, SameRun]

/-- pc advances from where it was before the answer was taken. -/
theorem advanced_takeAnswer_setReg_advance (s : State) (r : RegIdx) (v : Word) (f : Format) :
    Advanced s ((s.takeAnswer.setReg r v).advance f) f.width :=
  congrArg (· + BitVec.ofNat 24 f.width) (takeAnswer_pc s)

/-- The integer n the host answers goes into x[r] modulo 2^24, and nothing else of the spec's state differs. -/
theorem readInt_int_effect {n : Int} (r : RegIdx) (h : s.hostAnswer = .int n) :
    ∃ t, s.readInt r = .next t ∧ OnlyReg s t r (wrap n) ∧ t.flags = s.flags ∧ Advanced s t 7 ∧ SameMem s t ∧
      SameStack s t ∧ SameLatches s t ∧ SameRun s t ∧ t.out = s.out := by
  obtain ⟨hmem, hstack, hlatches, hrun⟩ := takeAnswer_setReg_advance_frame s r (wrap n) .ira
  exact ⟨_, readInt_of_int h, onlyReg_takeAnswer_setReg_advance s r (wrap n) .ira, takeAnswer_flags s,
    advanced_takeAnswer_setReg_advance s r (wrap n) .ira, hmem, hstack, hlatches, hrun, takeAnswer_out s⟩

/-- Settles O39: id 1 chooses the read, and each of the three answers has its lemma. -/
theorem readIntegerTakesAnswer : Obligations.ReadIntegerTakesAnswer := by
  intro s id r off hid
  rw [FaultsWith, ← raise_eq_faultedState, exec_syscall_readInt hid]
  refine ⟨fun n => readInt_int_effect r, readInt_of_noInput, fun hnever t ht => ?_⟩
  rw [readInt_of_never hnever] at ht
  cases ht

/-! ## Printing a string (R140) -/

/-- A string's length, written on the two bytes before it, the low one first (R140). -/
theorem stringLen_eq (s : State) (a : Nat) :
    s.stringLen a = (s.mem.read a).toNat + 256 * (s.mem.read (a + 1)).toNat := by
  simp [State.stringLen, Memory.readBytes, leNat]

/-- Length bytes beyond memory: the first guard takes the fault. -/
theorem printStr_lengthBytes_beyond (h : 65536 < s.stringAddr off + 2) :
    s.printStr off = .next (faultedState s .outOfBounds (s.stringAddr off)) := by
  rw [← raise_eq_faultedState]
  exact guard_of_false _ _ _ ((inBounds_eq_false_iff _ _).mpr h)

/-- With the length bytes inside memory the string's own bound decides. -/
theorem printStr_of_lengthBytes_inside (h : s.stringAddr off + 2 ≤ 65536) :
    s.printStr off =
      s.guard (inBounds (s.stringAddr off + 2) (s.stringLen (s.stringAddr off))) .outOfBounds (s.stringAddr off + 2)
        (.next ((s.emit (.outStr (s.mem.readBytes (s.stringAddr off + 2) (s.stringLen (s.stringAddr off))))).advance
          .ira)) :=
  guard_of_true _ _ _ ((inBounds_iff _ _).mpr h)

/-- A string that runs beyond memory: the second guard takes the fault. -/
theorem printStr_body_beyond (h : s.stringAddr off + 2 ≤ 65536)
    (hlen : 65536 < s.stringAddr off + 2 + s.stringLen (s.stringAddr off)) :
    s.printStr off = .next (faultedState s .outOfBounds (s.stringAddr off + 2)) := by
  rw [← raise_eq_faultedState, printStr_of_lengthBytes_inside h]
  exact guard_of_false _ _ _ ((inBounds_eq_false_iff _ _).mpr hlen)

/-- A string that ends inside memory is emitted, and its length bytes lie inside memory too. -/
theorem printStr_inside (h : s.stringAddr off + 2 + s.stringLen (s.stringAddr off) ≤ 65536) :
    s.printStr off = .next ((s.emit (.outStr (s.mem.readBytes (s.stringAddr off + 2)
      (s.stringLen (s.stringAddr off))))).advance .ira) := by
  rw [printStr_of_lengthBytes_inside (by omega)]
  exact guard_of_true _ _ _ ((inBounds_iff _ _).mpr h)

/-- Settles O41: id 2 chooses the print, its two guards decide in order, and the bytes emitted are those memory holds. -/
theorem printStringEmits : Obligations.PrintStringEmits := by
  intro s id r off hid
  simp only [FaultsWith, exec_syscall_printStr hid, ← stringLen_eq]
  exact ⟨printStr_lengthBytes_beyond, printStr_body_beyond, fun h =>
    ⟨_, length_readBytes _ _ _, getElem_readBytes _ _ _, printStr_inside h⟩⟩

end Sys2Proof.Machine
end

section
/-! PROOFS. What the loader accepts (spec/70_reset_and_hazards.md R160): a header's fields are the bytes of the numbers
they spell, so an accepted byte list is the image of its own entry, code and data. -/

namespace Sys2Proof.Machine

/-- A 2-byte header field spells a number below 2^16 (R159). -/
theorem leNat_pair_lt (b0 b1 : Byte) : leNat [b0, b1] < 65536 := by
  simp only [leNat]
  omega

/-- The header field of the number that two bytes spell is those bytes (R45, R159): `leNat_le16` the other way round. -/
theorem le16_leNat_pair (b0 b1 : Byte) : le16 (leNat [b0, b1]) = [b0, b1] := by
  have hlow : BitVec.ofNat 8 (leNat [b0, b1]) = b0 := by
    apply BitVec.eq_of_toNat_eq
    simp only [leNat, BitVec.toNat_ofNat]
    omega
  have hhigh : BitVec.ofNat 8 (leNat [b0, b1] / 256) = b1 := by
    apply BitVec.eq_of_toNat_eq
    simp only [leNat, BitVec.toNat_ofNat]
    omega
  rw [le16, hlow, hhigh]

/-- A header whose lengths are those of the sections after it, and those sections, are the image built of its fields. -/
theorem buildImage_of_header_fields {magic code data : List Byte} {e0 e1 c0 c1 d0 d1 : Byte}
    (hcode : code.length = leNat [c0, c1]) (hdata : data.length = leNat [d0, d1]) :
    buildImage magic (leNat [e0, e1]) code data =
      magic ++ Config.encodingVersion :: e0 :: e1 :: c0 :: c1 :: d0 :: d1 :: (code ++ data) := by
  simp only [buildImage, hcode, hdata, le16_leNat_pair, List.append_assoc, List.cons_append, List.nil_append]

/-- What the loader accepts is the image of some entry, code and data that fit, loaded whole: the sections are the body
cut at the header's code length. -/
theorem exists_buildImage_of_loadImageWith {magic image : List Byte} {s : State}
    (h : loadImageWith magic image = some s) :
    ∃ (entry : Nat) (code data : List Byte),
      image = buildImage magic entry code data ∧ entry < code.length ∧ code.length < 65536 ∧ data.length < 65536 ∧
      code.length + data.length ≤ 65536 ∧ s = State.loaded entry code data := by
  unfold loadImageWith at h
  split at h
  case h_1 m0 m1 m2 m3 version e0 e1 c0 c1 d0 d1 body =>
    obtain ⟨⟨rfl, rfl, hbody, hfit, hentry⟩, hs⟩ := Option.ite_none_right_eq_some.mp h
    have hcode : (body.take (leNat [c0, c1])).length = leNat [c0, c1] := List.length_take_of_le (by omega)
    have hdata : (body.drop (leNat [c0, c1])).length = leNat [d0, d1] := by
      rw [List.length_drop, hbody, Nat.add_sub_cancel_left]
    refine ⟨leNat [e0, e1], body.take (leNat [c0, c1]), body.drop (leNat [c0, c1]), ?_, ?_⟩
    · rw [buildImage_of_header_fields hcode hdata, List.take_append_drop]
      rfl
    · rw [hcode, hdata]
      exact ⟨hentry, leNat_pair_lt c0 c1, leNat_pair_lt d0 d1, hfit, (Option.some.inj hs).symm⟩
  case h_2 => cases h

/-- Settles O60: an accepted byte list is such an image (`exists_buildImage_of_loadImageWith`), and every such image is
accepted (`loadImageWith_buildImage`). -/
theorem loaderAcceptsExactlyGoodImages : Obligations.LoaderAcceptsExactlyGoodImages := by
  intro magic image s hm
  constructor
  · exact exists_buildImage_of_loadImageWith
  · rintro ⟨entry, code, data, rfl, he, hc, hd, hfit, rfl⟩
    exact loadImageWith_buildImage hm he hc hd hfit

end Sys2Proof.Machine
end

section
/-! PROOFS. Decoding what was encoded (spec/30_encoding.md §2 and §4, R59 to R66): each format's operand bytes read back,
so an encoding decodes to its instruction, and a step runs the instruction whose bytes lie at pc. -/

namespace Sys2Proof

variable {op : Byte}

/-! ## An opcode and the operand bytes of its format (R63) -/

theorem decode_n {i : Instr} (h : opcodeRow op = some (.n i)) (rest : List Byte) : decode (op :: rest) = .ok (i, rest) :=
  decode_cons _ h

theorem decode_r {mk : RegIdx → Instr} (h : opcodeRow op = some (.r mk)) (d : RegIdx) (rest : List Byte) :
    decode (op :: regByte d :: rest) = .ok (mk d, rest) := by
  simp [decode_cons _ h, Row.parse, orMalformed]

theorem decode_rr {mk : RegIdx → RegIdx → Instr} (h : opcodeRow op = some (.rr mk)) (d e : RegIdx) (rest : List Byte) :
    decode (op :: regByte d :: regByte e :: rest) = .ok (mk d e, rest) := by
  simp [decode_cons _ h, Row.parse, orMalformed]

theorem decode_rrr {mk : RegIdx → RegIdx → RegIdx → Instr} (h : opcodeRow op = some (.rrr mk)) (d e f : RegIdx)
    (rest : List Byte) : decode (op :: regByte d :: regByte e :: regByte f :: rest) = .ok (mk d e f, rest) := by
  simp [decode_cons _ h, Row.parse, orMalformed]

theorem decode_ri {mk : RegIdx → Word → Instr} (h : opcodeRow op = some (.ri mk)) (d : RegIdx) (v : Word)
    (rest : List Byte) : decode (op :: regByte d :: (immBytes v ++ rest)) = .ok (mk d v, rest) := by
  simp [decode_cons _ h, Row.parse, orMalformed, immBytes]

theorem decode_rri {mk : RegIdx → RegIdx → Word → Instr} (h : opcodeRow op = some (.rri mk)) (d e : RegIdx) (v : Word)
    (rest : List Byte) : decode (op :: regByte d :: regByte e :: (immBytes v ++ rest)) = .ok (mk d e v, rest) := by
  simp [decode_cons _ h, Row.parse, orMalformed, immBytes]

theorem decode_a {mk : Addr → Instr} (h : opcodeRow op = some (.a mk)) (t : Addr) (rest : List Byte) :
    decode (op :: (addrBytes t ++ rest)) = .ok (mk t, rest) := by
  simp [decode_cons _ h, Row.parse, addrBytes]

theorem decode_rar {mk : RegIdx → Addr → RegIdx → Instr} (h : opcodeRow op = some (.rar mk)) (d : RegIdx) (t : Addr)
    (e : RegIdx) (rest : List Byte) :
    decode (op :: regByte d :: (addrBytes t ++ regByte e :: rest)) = .ok (mk d t e, rest) := by
  simp [decode_cons _ h, Row.parse, orMalformed, addrBytes]

theorem decode_arr {mk : Addr → RegIdx → RegIdx → Instr} (h : opcodeRow op = some (.arr mk)) (t : Addr) (d e : RegIdx)
    (rest : List Byte) :
    decode (op :: (addrBytes t ++ regByte d :: regByte e :: rest)) = .ok (mk t d e, rest) := by
  simp [decode_cons _ h, Row.parse, orMalformed, addrBytes]

theorem decode_ira {mk : Word → RegIdx → Addr → Instr} (h : opcodeRow op = some (.ira mk)) (v : Word) (d : RegIdx)
    (t : Addr) (rest : List Byte) :
    decode (op :: (immBytes v ++ regByte d :: (addrBytes t ++ rest))) = .ok (mk v d t, rest) := by
  simp [decode_cons _ h, Row.parse, orMalformed, immBytes, addrBytes]

/-- Settles O1, by the instruction's format: its opcode's row makes it of the operands that its operand bytes spell. -/
theorem decodeInvertsEncode : Obligations.DecodeInvertsEncode := by
  intro i rest
  cases i with
  | halt | ret => exact decode_n rfl rest
  | push | pop | peek => exact decode_r rfl _ rest
  | mov | swap | adda | suba | mula | diva | moda | cmp | not | load | store => exact decode_rr rfl _ _ rest
  | add | sub | mul | div | mod | and | or | xor | shl | shr => exact decode_rrr rfl _ _ _ rest
  | loadi rd imm => exact decode_ri rfl rd imm rest
  | addi _ _ imm | subi _ _ imm | muli _ _ imm | divi _ _ imm | modi _ _ imm => exact decode_rri rfl _ _ imm rest
  | jmp t | jeq t | jne t | jgt t | jlt t | jgtu t | jltu t | call t => exact decode_a rfl t rest
  | aload rd base ri => exact decode_rar rfl rd base ri rest
  | astore base ri rs => exact decode_arr rfl base ri rs rest
  | syscall id r off => exact decode_ira rfl id r off rest

/-- Settles O3: each of the six is evaluated. -/
theorem writtenOutBytesDecode : Obligations.WrittenOutBytesDecode :=
  ⟨rfl, rfl, rfl, rfl, rfl, rfl⟩

end Sys2Proof

namespace Sys2Proof.Machine

variable {s : State} {i : Instr}

/-- Settles O6: a decode that succeeds leaves the step nothing to add (`step_of_decode_ok`). -/
theorem stepRunsDecodedInstruction : Obligations.StepRunsDecodedInstruction :=
  fun _ _ _ => step_of_decode_ok

/-- A fetch sees an instruction that fits memory whole, before whatever follows it (R46, R65). -/
theorem fetchWindow_of_bytes_at_pc (hfit : s.pc.toNat + i.width ≤ 65536)
    (hbytes : s.mem.readBytes s.pc.toNat i.width = encode i) : ∃ rest, s.fetchWindow = encode i ++ rest := by
  have hmax : i.width ≤ maxWidth := width_le_maxWidth i.format
  have hle : i.width ≤ min maxWidth (Config.memSize - s.pc.toNat) :=
    le_min hmax (Nat.le_sub_of_add_le' hfit)
  obtain ⟨k, hk⟩ := Nat.exists_eq_add_of_le hle
  exact ⟨s.mem.readBytes (s.pc.toNat + i.width) k, by rw [State.fetchWindow, hk, readBytes_add, hbytes]⟩

/-- Settles O7: the fetch begins with the instruction's encoding, which decodes to it whatever follows. -/
theorem stepRunsTheBytesAtPc : Obligations.StepRunsTheBytesAtPc := by
  intro s i hs hfit hbytes
  obtain ⟨rest, hfetch⟩ := fetchWindow_of_bytes_at_pc hfit hbytes
  exact step_of_decode_ok hs (by rw [hfetch]; exact decodeInvertsEncode i rest)

end Sys2Proof.Machine
end

section
/-! PROOFS. Memory (spec/20_memory.md §1 to §4 and §7): a word written and read, the canonical form told apart by what it
reads, and a store that the next fetch sees. -/

namespace Sys2Proof.Machine

/-! ## Words (R45) -/

/-- Settles O29: the model's own read, the read on bytes, the bytes, the frame and the canonical form have a law each. -/
theorem wordWriteThenRead : Obligations.WordWriteThenRead := by
  intro s a v hm hfit
  have hread := readWord_writeWord s v hm hfit
  exact ⟨hread, (readWord_eq_wordAt _ a).symm.trans hread, holdsWord_writeWord v hm hfit,
    fun _ hk => read_writeWord_outside s v hk, wf_writeWord v hm ((inBounds_iff _ _).mpr hfit)⟩

/-! ## The canonical form (R41) -/

section
variable {a b : Nat} {v w : Byte} {m m' : Memory}

theorem read_cons_same (a : Nat) (v : Byte) (m : Memory) : Memory.read ((a, v) :: m) a = v :=
  if_pos rfl

theorem read_cons_ne (v : Byte) (m : Memory) {k : Nat} (h : k ≠ a) : Memory.read ((a, v) :: m) k = m.read k :=
  if_neg h

/-- In a canonical memory the first cell's byte is listed for a reason, and every other cell lies above it. -/
theorem head_of_wf (h : Memory.wf ((a, v) :: m) = true) : v ≠ Memory.unlisted ∧ ∀ p ∈ m, a < p.1 := by
  obtain ⟨hrising, hcells⟩ := (wf_iff _).mp h
  exact ⟨(hcells _ (List.mem_cons_self ..)).1, (List.pairwise_cons.mp hrising).1⟩

/-- Two canonical memories that read the same begin at the same address: below its first cell a canonical memory reads
as unlisted, and at its first cell it does not. -/
theorem head_le_of_read_eq (h : Memory.wf ((a, v) :: m) = true) (h' : Memory.wf ((b, w) :: m') = true)
    (hread : ∀ k, Memory.read ((a, v) :: m) k = Memory.read ((b, w) :: m') k) : b ≤ a := by
  by_contra hlt
  have hab : a < b := Nat.lt_of_not_le hlt
  have hbelow : Memory.read ((b, w) :: m') a = Memory.unlisted := by
    rw [read_cons_ne w m' (Nat.ne_of_lt hab)]
    exact read_of_lt m' a fun p hp => Nat.lt_trans hab ((head_of_wf h').2 p hp)
  exact (head_of_wf h).1 (by rw [← read_cons_same a v m, hread, hbelow])

/-- A canonical memory that reads as unlisted everywhere lists nothing. -/
theorem eq_nil_of_read_unlisted (h : m.wf = true) (hread : ∀ k, m.read k = Memory.unlisted) : m = [] := by
  cases m with
  | nil => rfl
  | cons p m => exact absurd ((read_cons_same p.1 p.2 m).symm.trans (hread p.1)) (head_of_wf h).1

/-- Under equal first cells two canonical memories that read the same go on reading the same. -/
theorem read_tail_eq (h : Memory.wf ((a, v) :: m) = true) (h' : Memory.wf ((a, w) :: m') = true)
    (hread : ∀ k, Memory.read ((a, v) :: m) k = Memory.read ((a, w) :: m') k) (k : Nat) : m.read k = m'.read k := by
  by_cases hk : k = a
  · rw [hk, read_of_lt m a (head_of_wf h).2, read_of_lt m' a (head_of_wf h').2]
  · rw [← read_cons_ne v m hk, hread, read_cons_ne w m' hk]

end

/-- Settles O31, by induction on the first list: the first cells have one address (`head_le_of_read_eq`, both ways) and
one byte, and the rests read the same. -/
theorem canonicalMemoryIsUnique : Obligations.CanonicalMemoryIsUnique := by
  intro m
  induction m with
  | nil => exact fun m' _ h' hread => (eq_nil_of_read_unlisted h' fun k => (hread k).symm).symm
  | cons p m ih =>
    intro m' h h' hread
    cases m' with
    | nil => exact eq_nil_of_read_unlisted h hread
    | cons q m' =>
      obtain ⟨a, v⟩ := p
      obtain ⟨b, w⟩ := q
      obtain rfl : a = b :=
        Nat.le_antisymm (head_le_of_read_eq h' h fun k => (hread k).symm) (head_le_of_read_eq h h' hread)
      have hbyte : v = w := by rw [← read_cons_same a v m, hread, read_cons_same]
      rw [hbyte, ih m' (wf_tail h) (wf_tail h') (read_tail_eq h h' hread)]

/-! ## A store into code (20_memory.md §7) -/

/-- HALT's step, wherever its byte lies in memory at pc (R143). -/
theorem step_of_halt_byte_at_pc {s : State} (hs : s.state = .running) (hpc : s.pc.toNat < 65536)
    (hbyte : (s.mem.read s.pc.toNat).toNat = 1) : step s = .next (s.haltWith 0) := by
  have hread : s.mem.read s.pc.toNat = 1 := BitVec.eq_of_toNat_eq hbyte
  exact stepRunsTheBytesAtPc s .halt hs hpc (congrArg (fun b => [b]) hread)

/-- Settles O30: the store puts HALT's opcode at the pc it advances to, and the step there is HALT's. -/
theorem storeIntoCodeIsFetched : Obligations.StoreIntoCodeIsFetched := by
  intro s rs ra hm hs haddr hnext hlow
  have hfit := (word_fits_iff (s.reg ra).toNat).mpr haddr
  have hpc : ((s.writeWord (s.reg ra).toNat (s.reg rs)).advance .rr).pc = s.reg ra := hnext.symm
  obtain ⟨hbyte, _, _⟩ := holdsWord_writeWord (s.reg rs) hm hfit
  exact ⟨(s.writeWord (s.reg ra).toNat (s.reg rs)).advance .rr, storeAt_ok hfit,
    step_of_halt_byte_at_pc hs (by rw [hpc]; omega) (by rw [hpc]; exact hbyte.trans hlow)⟩

end Sys2Proof.Machine
end

section
/-! PROOFS. What the results of arithmetic mean (spec/40_engine.md §2 and §3): quotient and remainder make up the dividend,
and the flags of a compare tell equality and both orders. -/

namespace Sys2Proof.Machine

variable {a b : Word}

/-! ## Quotient and remainder (R88, R89, R94) -/

/-- A signed result that fits a word is read back from it (R8, R84). -/
theorem toInt_ofInt_of_not_outOfSigned {n : Int} (h : ¬OutOfSigned n) : (BitVec.ofInt 24 n).toInt = n := by
  unfold OutOfSigned at h
  rw [BitVec.toInt_ofInt]
  exact Int.bmod_eq_of_le (by omega) (by omega)

/-- Settles O18: off the one overflow both results fit a word, and they are those of the truncated division. -/
theorem quotientAndRemainderRecompose : Obligations.QuotientAndRemainderRecompose := by
  intro s rd ra rb hb hover
  obtain ⟨⟨t, ht, ⟨hquot, _⟩, _⟩, hiff⟩ := (aluDiv_effect (i := .div rd ra rb) (s := s) .rrr rfl).2 hb
  obtain ⟨m, hm, ⟨u, hu, ⟨hrem, _⟩, _⟩, _, _, hfits⟩ := (aluMod_effect (i := .mod rd ra rb) (s := s) .rrr rfl).2 hb
  refine ⟨t, u, ht, hu, ?_⟩
  rw [hquot, hrem, toInt_ofInt_of_not_outOfSigned (mt hiff.mp hover), toInt_ofInt_of_not_outOfSigned hfits, hm]
  omega

/-! ## The flags of a compare (R86, R95) -/

/-- The low word of a difference is 0 for equal words alone. -/
theorem aluSub_z_iff (a b : Word) : (aluSub a b).f.z = true ↔ a = b := by
  obtain ⟨hz, _, _, _⟩ := aluSub_flagsAre a b
  rw [hz, BitVec.toNat_ofInt, ← BitVec.toNat_inj]
  omega

/-- C is the borrow. -/
theorem aluSub_c_iff (a b : Word) : (aluSub a b).f.c = true ↔ a.toNat < b.toNat :=
  decide_eq_true_iff

/-- N alone tells the sign of the low word, which V says is the wrong one where the difference fits no word. -/
theorem aluSub_n_ne_v_iff (a b : Word) : (aluSub a b).f.n ≠ (aluSub a b).f.v ↔ a.toInt < b.toInt := by
  obtain ⟨_, hn, _, hv⟩ := aluSub_flagsAre a b
  rw [ne_eq, Bool.eq_iff_iff, hn, hv, BitVec.toNat_ofInt, OutOfSigned, BitVec.toInt_eq_toNat_cond,
    BitVec.toInt_eq_toNat_cond]
  split <;> split <;> omega

theorem condEq_aluSub_iff (a b : Word) : condEq (aluSub a b).f = true ↔ a = b :=
  (condEq_iff _).trans (aluSub_z_iff a b)

theorem condNe_aluSub_iff (a b : Word) : condNe (aluSub a b).f = true ↔ a ≠ b := by
  rw [condNe_iff, ← Bool.not_eq_true, aluSub_z_iff]

theorem condLt_aluSub_iff (a b : Word) : condLt (aluSub a b).f = true ↔ a.toInt < b.toInt :=
  (condLt_iff _).trans (aluSub_n_ne_v_iff a b)

/-- Signed greater is neither equal nor signed less. -/
theorem condGt_aluSub_iff (a b : Word) : condGt (aluSub a b).f = true ↔ b.toInt < a.toInt := by
  rw [condGt_iff, ← Bool.not_eq_true, aluSub_z_iff, ← not_ne_iff (a := (aluSub a b).f.n), aluSub_n_ne_v_iff,
    ← BitVec.toInt_inj]
  omega

/-- Unsigned greater is neither equal nor unsigned less. -/
theorem condGtu_aluSub_iff (a b : Word) : condGtu (aluSub a b).f = true ↔ b.toNat < a.toNat := by
  rw [condGtu_iff, ← Bool.not_eq_true, ← Bool.not_eq_true, aluSub_z_iff, aluSub_c_iff, ← BitVec.toNat_inj]
  omega

theorem condLtu_aluSub_iff (a b : Word) : condLtu (aluSub a b).f = true ↔ a.toNat < b.toNat :=
  (condLtu_iff _).trans (aluSub_c_iff a b)

/-- Settles O34: a jump after CMP tests the flags of sub(a, b), which tell its relation of the two registers. -/
theorem cmpThenJumpDecidesOrder : Obligations.CmpThenJumpDecidesOrder := fun s ra rb =>
  ⟨_, rfl, fun _ =>
    ⟨jumpIf_effect rfl (condEq_aluSub_iff (s.reg ra) (s.reg rb)),
      jumpIf_effect rfl (condNe_aluSub_iff (s.reg ra) (s.reg rb)),
      jumpIf_effect rfl (condGt_aluSub_iff (s.reg ra) (s.reg rb)),
      jumpIf_effect rfl (condLt_aluSub_iff (s.reg ra) (s.reg rb)),
      jumpIf_effect rfl (condGtu_aluSub_iff (s.reg ra) (s.reg rb)),
      jumpIf_effect rfl (condLtu_aluSub_iff (s.reg ra) (s.reg rb))⟩⟩

end Sys2Proof.Machine
end

section
/-! PROOFS. A call and its return (spec/46_control.md §2): the word that a call pushes is what the return takes. -/

namespace Sys2Proof.Machine

/-- The address after a CALL that ends inside memory or at its end does not wrap (R15). -/
theorem next_a_toNat {s : State} (h : s.pc.toNat + 3 ≤ 65536) : (s.next .a).toNat = s.pc.toNat + 3 := by
  rw [next_a_eq_ofNat, BitVec.toNat_ofNat]
  omega

/-- Settles O37: the call counts one depth and leaves its return address on top, so that the return admits it, jumps there
and moves sp and depth back. -/
theorem callThenRetComesBack : Obligations.CallThenRetComesBack := by
  intro s target hm hd h htop hpc
  have hfit := pushAddr_add_three_le htop
  have hpop : ((s.pushed (s.next .a)).incDepth.jump (zext target)).sp.toNat + 3 ≤ 65536 := by
    rw [jump_sp, incDepth_sp, pushed_sp_toNat]
    exact hfit
  have hreturn : ((s.pushed (s.next .a)).incDepth.jump (zext target)).top = s.next .a := top_pushed (s.next .a) hm hfit
  refine ⟨_, _, execCall_ok target hd h htop, execRet_ok (Nat.succ_pos s.depth) hpop, ?_,
    popped_pushed_sp (s.next .a) (by omega), Nat.add_sub_cancel s.depth 1, fun _ => rfl, rfl⟩
  rw [jump_pc, hreturn, next_a_toNat hpc]

end Sys2Proof.Machine
end

section
/-! PROOFS. SYSCALL's operands and the host's answers (spec/30_encoding.md §5, spec/47_system.md §1): which operand each id
reads, and how the model draws an answer (log entries 4 and 5). -/

namespace Sys2Proof.Machine

variable {s : State} {id : Word} {r : RegIdx} {off : Addr}

/-! ## The operands an id reads (R70, R137) -/

/-- The bytes of an id, a register and an address (R60 to R62). -/
theorem codeBytes_ira (op : Byte) {i : Instr} {v : Word} {d : RegIdx} {t : Addr}
    (h : encode i = op :: (immBytes v ++ (regByte d :: addrBytes t))) :
    codeBytes i = [op.toNat] ++ immNats v ++ [d.val] ++ addrNats t := by
  simp [codeBytes, h]

/-- The ids are the four services and the unknown ones. -/
theorem syscall_id_cases (id : Word) : id.toNat = 0 ∨ id.toNat = 1 ∨ id.toNat = 2 ∨ id.toNat = 3 ∨ 4 ≤ id.toNat := by
  omega

/-- Only the print of a string has an address. -/
theorem exec_syscall_off_irrelevant (r : RegIdx) (off off' : Addr) (h : id.toNat ≠ 2) :
    exec (.syscall id r off) s = exec (.syscall id r off') s := by
  rcases syscall_id_cases id with hid | hid | hid | hid | hid
  · rw [exec_syscall_printInt hid, exec_syscall_printInt hid]
  · rw [exec_syscall_readInt hid, exec_syscall_readInt hid]
  · exact absurd hid h
  · rw [exec_syscall_exit hid, exec_syscall_exit hid]
  · rw [exec_syscall_unknown hid, exec_syscall_unknown hid]

/-- Settles O44: the bytes from the format, the rest from the service each id chooses. -/
theorem syscallIgnoresUnusedOperands : Obligations.SyscallIgnoresUnusedOperands := fun _ _ r _ off off' =>
  ⟨codeBytes_ira 0x60 rfl, exec_syscall_off_irrelevant r off off', fun hid =>
    (exec_syscall_printStr hid).trans (exec_syscall_printStr hid).symm⟩

/-! ## Drawing an answer (R139, log entry 4) -/

theorem hostAnswer_of_lined_up {h : HostAnswer} {rest : List HostAnswer} (hin : s.hostInput = h :: rest) :
    s.hostAnswer = h := by
  simp [State.hostAnswer, hin]

theorem takeAnswer_of_lined_up {h : HostAnswer} {rest : List HostAnswer} (hin : s.hostInput = h :: rest) :
    s.takeAnswer = { s with hostInput := rest } := by
  simp [State.takeAnswer, hin]

theorem hostAnswer_of_none_lined_up (hin : s.hostInput = []) : s.hostAnswer = Config.hostAnswer s.hostReads := by
  simp [State.hostAnswer, hin]

theorem takeAnswer_of_none_lined_up (hin : s.hostInput = []) :
    s.takeAnswer = { s with hostReads := s.hostReads + 1 } := by
  simp [State.takeAnswer, hin]

/-- A read that the host answers with an integer takes the answer and writes the register. -/
theorem readInt_takes_answer {n : Int} (r : RegIdx) (h : s.hostAnswer = .int n) :
    ∃ t, s.readInt r = .next t ∧ t.reg r = BitVec.ofInt 24 n ∧ t.hostInput = s.takeAnswer.hostInput ∧
      t.hostReads = s.takeAnswer.hostReads :=
  ⟨_, readInt_of_int h, reg_setReg_same s.takeAnswer r (wrap n), rfl, rfl⟩

/-- Settles O40: an answer lined up is the first of its list and leaves the rest; with none the free answer of the counter
is drawn, and each of the three kinds of answer has its lemma. -/
theorem hostAnswersAreTakenInOrder : Obligations.HostAnswersAreTakenInOrder := by
  intro s id r off hid
  rw [FaultsWith, ← raise_eq_faultedState, exec_syscall_readInt hid]
  refine ⟨fun n rest hin => ?_, readInt_of_never, fun hin => ?_⟩
  · have htaken := readInt_takes_answer r (hostAnswer_of_lined_up hin)
    rwa [takeAnswer_of_lined_up hin] at htaken
  · have hans := hostAnswer_of_none_lined_up hin
    split
    case h_1 n hfree =>
      have htaken := readInt_takes_answer r (hans.trans hfree)
      rwa [takeAnswer_of_none_lined_up hin, hin] at htaken
    case h_2 hfree => exact readInt_of_noInput (hans.trans hfree)
    case h_3 hfree => exact hans.trans hfree

end Sys2Proof.Machine
end

section
/-! PROOFS. Which instruction touches what (spec/10_state.md §4 and §5, spec/20_memory.md §4): registers, memory, stack and
host, each read off everything an instruction can do (`ExecForm`). -/

namespace Sys2Proof.Machine

variable {i : Instr} {s t : State}

/-! ## Registers (R30) -/

/-- No register but a destination differs. -/
theorem ExecForm.reg_eq (h : ExecForm i s t) {j : RegIdx} (hj : j ∉ destinations i) : t.reg j = s.reg j := by
  cases h with
  | wroteReg rd _ _ hd => exact reg_setReg_ne s rd j _ (ne_of_mem_of_not_mem hd hj).symm
  | wroteAlu rd _ _ hd => exact (reg_writeAlu s rd j _ _).trans (if_neg (ne_of_mem_of_not_mem hd hj).symm)
  | swapped ra rb hi =>
    subst hi
    exact reg_exchange_other s (fun e => hj (by simp [destinations, e])) (fun e => hj (by simp [destinations, e]))
  | popped rd hi =>
    subst hi
    exact reg_setReg_ne _ rd j _ fun e => hj (by simp [destinations, e])
  | answered id r off n hi hid =>
    subst hi
    have hne : j ≠ r := fun e => hj (by simp [destinations, hid, e])
    exact (onlyReg_takeAnswer_setReg_advance s r (wrap n) .ira).2 j hne
  | raised | compared | pushed | stored | jumped | called | returned | emitted | halted => rfl

/-- Settles O54: from what an instruction can do (`exec_form`). -/
theorem onlyDestinationsChange : Obligations.OnlyDestinationsChange :=
  fun _ _ _ h _ => (exec_form h).reg_eq

/-! ## Memory (R49) -/

/-- Memory is as before, or one word was written, at the address that the instruction stores to. -/
theorem ExecForm.mem_cases (h : ExecForm i s t) :
    t.mem = s.mem ∨ ∃ a v, storeAddr i s = some a ∧ t.mem = (s.writeWord a v).mem := by
  cases h with
  | pushed rs hi => exact .inr ⟨s.pushAddr, s.reg rs, by rw [hi]; rfl, rfl⟩
  | called target hi => exact .inr ⟨s.pushAddr, s.next .a, by rw [hi]; rfl, rfl⟩
  | stored a v _ _ hs => exact .inr ⟨a, v, hs, rfl⟩
  | raised | wroteReg | swapped | wroteAlu | compared | popped | jumped | returned | emitted | answered | halted =>
    exact .inl (by simp)

/-- Settles O55: an instruction writes at most the word at its address, and that write leaves every other byte. -/
theorem onlyTheStoredWordChanges : Obligations.OnlyTheStoredWordChanges := by
  intro i s t h
  rcases (exec_form h).mem_cases with hmem | ⟨a, v, haddr, hmem⟩
  · have hsame : SameMem s t := fun k => by rw [hmem]
    exact ⟨fun _ => hsame, fun _ _ k _ => hsame k⟩
  · refine ⟨fun hnone => ?_, fun b hb k hk => ?_⟩
    · rw [haddr] at hnone
      cases hnone
    · obtain rfl : a = b := Option.some.inj (haddr.symm.trans hb)
      rw [hmem]
      exact read_writeWord_outside s v hk

/-! ## Stack pointer and depth (R21, R22) -/

/-- A push that its guard admits moves sp down by 3. -/
theorem pushed_sp_toNat_add_three (v : Word) (hc : s.canPush = true) : (s.pushed v).sp.toNat + 3 = s.sp.toNat := by
  have := (canPush_iff s).mp hc
  rw [pushed_sp_toNat]
  omega

/-- Sp and depth are as before, or the instruction is one of the four and has moved them by its own step. -/
theorem ExecForm.stack_cases (h : ExecForm i s t) : SameStack s t ∨
    (∃ r, i = .push r ∧ t.depth = s.depth ∧ t.sp.toNat + 3 = s.sp.toNat) ∨
    (∃ r, i = .pop r ∧ t.depth = s.depth ∧ t.sp.toNat = s.sp.toNat + 3) ∨
    (∃ a, i = .call a ∧ t.sp.toNat + 3 = s.sp.toNat ∧ t.depth = s.depth + 1) ∨
    (i = .ret ∧ t.sp.toNat = s.sp.toNat + 3 ∧ t.depth + 1 = s.depth) := by
  cases h with
  | pushed r hi hc => exact .inr (.inl ⟨r, hi, rfl, pushed_sp_toNat_add_three (s.reg r) hc⟩)
  | popped r hi hc => exact .inr (.inr (.inl ⟨r, hi, rfl, popped_sp_toNat s hc⟩))
  | called a hi _ hc => exact .inr (.inr (.inr (.inl ⟨a, hi, pushed_sp_toNat_add_three (s.next .a) hc, rfl⟩)))
  | returned hi hd hc =>
    exact .inr (.inr (.inr (.inr ⟨hi, popped_sp_toNat s hc, Nat.sub_add_cancel ((canReturn_iff s).mp hd)⟩)))
  | raised | wroteReg | swapped | wroteAlu | compared | stored | jumped | emitted | answered | halted =>
    exact .inl (by simp [SameStack])

/-- Settles O56, by which of the four the instruction is, if any. -/
theorem onlyStackInstructionsMoveSp : Obligations.OnlyStackInstructionsMoveSp := by
  intro i s t h
  rcases (exec_form h).stack_cases with ⟨hsp, hd⟩ | ⟨r, rfl, hd, hsp⟩ | ⟨r, rfl, hd, hsp⟩ | ⟨a, rfl, hsp, hd⟩ |
    ⟨rfl, hsp, hd⟩
  · exact ⟨fun _ => ⟨hsp, hd⟩, fun _ _ => ⟨hd, .inl hsp⟩, fun _ _ => ⟨hd, .inl hsp⟩, fun _ _ => .inl ⟨hsp, hd⟩,
      fun _ => .inl ⟨hsp, hd⟩⟩
  all_goals simp [movesSp, hd, hsp]

/-! ## Output and the host's answers (R28, R158) -/

/-- Settles O57: of what an instruction can do, only a print emits and only a read takes an answer. -/
theorem onlySyscallReachesHost : Obligations.OnlySyscallReachesHost := by
  intro i s t h
  cases exec_form h with
  | emitted id r off e hi hid => exact ⟨.inr ⟨id, r, off, e, hi, hid, rfl⟩, .inl ⟨rfl, rfl⟩⟩
  | answered id r off _ hi hid => exact ⟨.inl (takeAnswer_out s), .inr ⟨id, r, off, hi, hid⟩⟩
  | raised | wroteReg | swapped | wroteAlu | compared | pushed | popped | stored | jumped | called | returned
  | halted => exact ⟨.inl rfl, .inl ⟨rfl, rfl⟩⟩

end Sys2Proof.Machine
end

section
/-! PROOFS. The flags are read by the conditional jumps alone (spec/10_state.md §3, R20): every other instruction answers
the same from other flags, but for the flags themselves. -/

namespace Sys2Proof.Machine

variable {s : State}

/-- Two answers that are the same stop, or next states that differ in the flags at most. -/
inductive SameButFlags : Result → Result → Prop
  | next {t u : State} (h : u.setFlags t.flags = t) : SameButFlags (.next t) (.next u)
  | fault (e : Fault) : SameButFlags (.fault e) (.fault e)

/-! ## The shared operations (R33, R139, R140) -/

/-- A guard that does not look at the flags keeps answers the same: the fault state has the flags it was taken with. -/
theorem SameButFlags.guard {b b' : Result} (f : Flags) (c : Bool) (k : ErrorKind) (a : Nat) (h : SameButFlags b b') :
    SameButFlags (s.guard c k a b) ((s.setFlags f).guard c k a b') := by
  cases c with
  | true => exact h
  | false => exact .next rfl

theorem hostAnswer_setFlags (s : State) (f : Flags) : (s.setFlags f).hostAnswer = s.hostAnswer := rfl

theorem takeAnswer_setFlags (s : State) (f : Flags) : (s.setFlags f).takeAnswer = s.takeAnswer.setFlags f := by
  cases hin : s.hostInput with
  | nil => rw [takeAnswer_of_none_lined_up hin, takeAnswer_of_none_lined_up (s := s.setFlags f) hin]; rfl
  | cons h rest => rw [takeAnswer_of_lined_up hin, takeAnswer_of_lined_up (s := s.setFlags f) hin]; rfl

theorem readInt_sameButFlags (f : Flags) (r : RegIdx) : SameButFlags (s.readInt r) ((s.setFlags f).readInt r) := by
  cases hans : s.hostAnswer with
  | int n =>
    rw [readInt_of_int hans, readInt_of_int ((hostAnswer_setFlags s f).trans hans), takeAnswer_setFlags]
    exact .next rfl
  | noInput =>
    rw [readInt_of_noInput hans, readInt_of_noInput ((hostAnswer_setFlags s f).trans hans)]
    exact .next rfl
  | never =>
    rw [readInt_of_never hans, readInt_of_never ((hostAnswer_setFlags s f).trans hans)]
    exact .fault _

theorem execSyscall_sameButFlags (f : Flags) (id : Word) (r : RegIdx) (off : Addr) :
    SameButFlags (exec (.syscall id r off) s) (exec (.syscall id r off) (s.setFlags f)) := by
  rcases syscall_id_cases id with hid | hid | hid | hid | hid
  · rw [exec_syscall_printInt hid, exec_syscall_printInt hid]
    exact .next rfl
  · rw [exec_syscall_readInt hid, exec_syscall_readInt hid]
    exact readInt_sameButFlags f r
  · rw [exec_syscall_printStr hid, exec_syscall_printStr hid]
    exact .guard f _ _ _ (.guard f _ _ _ (.next rfl))
  · rw [exec_syscall_exit hid, exec_syscall_exit hid]
    exact .next rfl
  · rw [exec_syscall_unknown hid, exec_syscall_unknown hid]
    exact .next rfl

/-! ## Every instruction -/

/-- An instruction that is no conditional jump answers the same from other flags: a body without a guard, or under one
guard (division, POP, PEEK, loads, stores), two (PUSH, RET) or three (CALL). -/
theorem exec_sameButFlags (f : Flags) {i : Instr} (h : readsFlags i = false) :
    SameButFlags (exec i s) (exec i (s.setFlags f)) := by
  cases i with
  | halt | loadi | mov | swap | add | sub | mul | addi | subi | muli | adda | suba | mula | cmp | and | or | xor | not
  | shl | shr | jmp => exact .next rfl
  | div | mod | divi | modi | diva | moda | pop | peek | load | store | aload | astore =>
    exact .guard f _ _ _ (.next rfl)
  | push | ret => exact .guard f _ _ _ (.guard f _ _ _ (.next rfl))
  | call => exact .guard f _ _ _ (.guard f _ _ _ (.guard f _ _ _ (.next rfl)))
  | syscall id r off => exact execSyscall_sameButFlags f id r off
  | jeq | jne | jgt | jlt | jgtu | jltu => cases h

/-- Settles O53: the two answers agree (`exec_sameButFlags`), read off for a next state and for a stop. -/
theorem onlyConditionalJumpsReadFlags : Obligations.OnlyConditionalJumpsReadFlags := by
  intro i s f hreads
  have hsame := exec_sameButFlags (s := s) f hreads
  refine ⟨fun t ht => ?_, fun e he => ?_⟩
  · rw [ht] at hsame
    generalize hu : exec i (s.setFlags f) = answer at hsame
    cases hsame with
    | next h => exact ⟨_, hu, h⟩
  · rw [he] at hsame
    generalize hu : exec i (s.setFlags f) = answer at hsame
    cases hsame with
    | fault => exact hu

end Sys2Proof.Machine
end

section
/-! PROOFS. A running machine goes on (spec/40_engine.md R78 and R79, spec/60_exceptions.md §5): every instruction answers a
next state, but for a read whose answer never comes. -/

namespace Sys2Proof.Machine

variable {s : State} {i : Instr}

/-- The answer is a next state. -/
def Completes (r : Result) : Prop := ∃ t, r = .next t

theorem completes_next (t : State) : Completes (.next t) := ⟨t, rfl⟩

/-- A guard answers a next state where its body does: the fault it takes is one too (R145). -/
theorem completes_guard {body : Result} (c : Bool) (k : ErrorKind) (a : Nat) (h : Completes body) :
    Completes (s.guard c k a body) := by
  cases c with
  | true => exact h
  | false => exact completes_next _

theorem completes_jumpIf (c : Bool) (target : Addr) : Completes (s.jumpIf c target) := by
  cases c <;> exact completes_next _

/-- The instruction reads an integer from a host that never answers (R139). -/
def WaitsForEver (i : Instr) (s : State) : Prop :=
  exec i s = .fault .hostNeverAnswers ∧ s.hostAnswer = .never ∧ ∃ id r off, i = .syscall id r off ∧ id.toNat = 1

/-- SYSCALL by its id: a read of an integer alone may have no next state. -/
theorem execSyscall_completes (id : Word) (r : RegIdx) (off : Addr) :
    Completes (exec (.syscall id r off) s) ∨ WaitsForEver (.syscall id r off) s := by
  rcases syscall_id_cases id with hid | hid | hid | hid | hid
  · rw [exec_syscall_printInt hid]
    exact .inl (completes_next _)
  · rw [WaitsForEver, exec_syscall_readInt hid]
    cases hans : s.hostAnswer with
    | int n => exact .inl ⟨_, readInt_of_int hans⟩
    | noInput => exact .inl ⟨_, readInt_of_noInput hans⟩
    | never => exact .inr ⟨readInt_of_never hans, rfl, id, r, off, rfl, hid⟩
  · rw [exec_syscall_printStr hid]
    exact .inl (completes_guard _ _ _ (completes_guard _ _ _ (completes_next _)))
  · rw [exec_syscall_exit hid]
    exact .inl (completes_next _)
  · rw [exec_syscall_unknown hid]
    exact .inl (completes_next _)

/-- An instruction answers a next state: its body does, and so does each guard in front of it. -/
theorem exec_completes (i : Instr) (s : State) : Completes (exec i s) ∨ WaitsForEver i s := by
  cases i with
  | halt | loadi | mov | swap | add | sub | mul | addi | subi | muli | adda | suba | mula | cmp | and | or | xor | not
  | shl | shr | jmp => exact .inl (completes_next _)
  | jeq | jne | jgt | jlt | jgtu | jltu => exact .inl (completes_jumpIf _ _)
  | div | mod | divi | modi | diva | moda | pop | peek | load | store | aload | astore =>
    exact .inl (completes_guard _ _ _ (completes_next _))
  | push | ret => exact .inl (completes_guard _ _ _ (completes_guard _ _ _ (completes_next _)))
  | call => exact .inl (completes_guard _ _ _ (completes_guard _ _ _ (completes_guard _ _ _ (completes_next _))))
  | syscall id r off => exact execSyscall_completes id r off

theorem step_halted (h : s.state = .halted) : step s = .fault .noStepHalted := by
  rw [step, h]

theorem step_faulted (h : s.state = .faulted) : step s = .fault .noStepFaulted := by
  rw [step, h]

/-- Settles O9: a failed decode is a fault, which is a next state, and a decoded instruction is as `exec_completes` says. -/
theorem runningStepCompletes : Obligations.RunningStepCompletes := by
  intro s
  refine ⟨step_halted, step_faulted, fun hs => ?_⟩
  cases hd : decode s.fetchWindow with
  | error e => exact .inl ⟨s.raiseDecode e, by rw [step_running hs, hd]⟩
  | ok p =>
    obtain ⟨i, rest⟩ := p
    rw [step_of_decode_ok hs hd]
    rcases exec_completes i s with hnext | ⟨hwait, hnever, id, r, off, rfl, hid⟩
    · exact .inl hnext
    · exact .inr ⟨hwait, hnever, id, r, off, rest, rfl, hid⟩

end Sys2Proof.Machine
end

section
/-! PROOFS. The invariant (spec/10_state.md §4 and §7, spec/60_exceptions.md §1, spec/70_reset_and_hazards.md §2): a fault
is precise, the latches stay, every step keeps the invariant, and reset and every loaded image meet it. -/

namespace Sys2Proof.Machine

variable {i : Instr} {s t : State}

/-! ## Faults (R80, R144, R145) -/

/-- Settles O47: the codes are the table's. -/
theorem faultCodes : Obligations.FaultCodes :=
  ⟨rfl, rfl, rfl, rfl, rfl, rfl, rfl, rfl, rfl⟩

/-- A fault was taken at `s`, with address 0 unless it is a memory error (R144). -/
def TakesFault (s t : State) : Prop := ∃ k a, t = s.raise k a ∧ (k ≠ .outOfBounds → a = 0)

/-- Of the faults of a failed decode the fetch beyond memory is the memory error (R66). -/
theorem takesFault_raiseDecode (s : State) (e : DecodeError) : TakesFault s (s.raiseDecode e) := by
  cases e with
  | truncated => exact ⟨.outOfBounds, s.pc.toNat, rfl, fun h => absurd rfl h⟩
  | invalidOpcode => exact ⟨.invalidOpcode, 0, rfl, fun _ => rfl⟩
  | malformedOperand => exact ⟨.malformedOperand, 0, rfl, fun _ => rfl⟩

/-- A step that has a next state was taken in Running, and took a fault or did what an instruction can do (R79). -/
theorem step_form (h : step s = .next t) : s.state = .running ∧ (TakesFault s t ∨ ∃ i, ExecForm i s t) := by
  obtain ⟨hs, ⟨e, _, rfl⟩ | ⟨i, _, _, hexec⟩⟩ := step_cases h
  · exact ⟨hs, .inl (takesFault_raiseDecode s e)⟩
  · exact ⟨hs, .inr ⟨i, exec_form hexec⟩⟩

/-- An instruction that leaves a running machine in Faulted has taken a fault. -/
theorem ExecForm.takesFault (h : ExecForm i s t) (hs : s.state = .running) (ht : t.state = .faulted) :
    TakesFault s t := by
  cases h with
  | raised k a ha => exact ⟨k, a, rfl, ha⟩
  | halted => cases ht
  | wroteReg | swapped | wroteAlu | compared | pushed | popped | stored | jumped | called | returned | emitted
  | answered => simp [hs] at ht

/-- The record's address is 0 where the fault's is. -/
theorem capAddr_eq_zero {a : Nat} (h : a = 0) : capAddr a = 0 := by
  rw [h]
  rfl

/-- Settles O46: the step has taken a fault (`step_form`), and a fault writes the run state and the record alone. -/
theorem faultEntryIsPrecise : Obligations.FaultEntryIsPrecise := by
  intro s t h ht
  obtain ⟨hs, hcases⟩ := step_form h
  have hfault : TakesFault s t := hcases.elim id fun ⟨_, hform⟩ => hform.takesFault hs ht
  obtain ⟨k, a, hraise, ha⟩ := hfault
  exact ⟨k, capAddr a, hraise, fun hk => capAddr_eq_zero (ha hk)⟩

/-! ## The latches (R23, R24) -/

theorem ExecForm.sameLatches (h : ExecForm i s t) : SameLatches s t := by
  cases h with
  | answered => exact ⟨takeAnswer_stackLimit s, takeAnswer_dataBase s⟩
  | raised | wroteReg | swapped | wroteAlu | compared | pushed | popped | stored | jumped | called | returned | emitted
  | halted => exact ⟨rfl, rfl⟩

/-- Settles O51: neither a fault nor an instruction writes a latch. -/
theorem stepKeepsLatches : Obligations.StepKeepsLatches := by
  intro s t h
  obtain ⟨_, ⟨k, a, rfl, _⟩ | ⟨i, hform⟩⟩ := step_form h
  · exact ⟨rfl, rfl⟩
  · exact hform.sameLatches

/-! ## What keeps the invariant -/

/-- A running machine that meets the invariant has no record and no status (R26, R27). -/
theorem Inv.no_record (hs : Inv s) (hr : s.state = .running) : s.fault = none ∧ s.status = none := by
  constructor
  · simpa [hr] using hs.fault_iff
  · simpa [hr] using hs.status_iff

/-- A fault keeps the invariant: it makes the record that Faulted calls for. -/
theorem Inv.raise (hs : Inv s) (hr : s.state = .running) {k : ErrorKind} {a : Nat} (ha : k ≠ .outOfBounds → a = 0) :
    Inv (s.raise k a) := by
  obtain ⟨_, hstatus⟩ := hs.no_record hr
  exact { hs with
    fault_iff := by simp
    status_iff := by simp [hstatus]
    record_pc := by simp
    record_addr := by simpa using fun hk => capAddr_eq_zero (ha hk) }

/-- The end of a run keeps the invariant: it makes the status that Halted calls for. -/
theorem Inv.haltWith (hs : Inv s) (hr : s.state = .running) (v : Word) : Inv (s.haltWith v) := by
  obtain ⟨hfault, _⟩ := hs.no_record hr
  exact { hs with
    fault_iff := by simp [hfault]
    status_iff := by simp
    record_pc := by simp [hfault]
    record_addr := by simp [hfault] }

/-- An instruction that leaves run state and latches alone keeps the invariant if what it makes of memory, sp and depth is
in bounds. -/
theorem Inv.of_sameRun (hs : Inv s) (hr : s.state = .running) (hrun : SameRun s t) (hlatches : SameLatches s t)
    (hmem : t.mem.wf = true) (hlow : s.stackLimit.toNat ≤ t.sp.toNat) (htop : t.sp.toNat ≤ 65536)
    (hdepth : t.depth ≤ Config.maxStackDepth) : Inv t := by
  obtain ⟨hfault, hstatus⟩ := hs.no_record hr
  obtain ⟨hstate, hfault', hstatus'⟩ := hrun
  obtain ⟨hlimit, hbase⟩ := hlatches
  rw [hfault] at hfault'
  rw [hstatus] at hstatus'
  rw [hr] at hstate
  exact {
    mem_wf := hmem
    limit_le_sp := by rwa [hlimit]
    sp_le_top := htop
    data_le_limit := by rw [hlimit, hbase]; exact hs.data_le_limit
    depth_le_max := hdepth
    fault_iff := by simp [hfault', hstate]
    status_iff := by simp [hstatus', hstate]
    record_pc := by simp [hfault']
    record_addr := by simp [hfault'] }

/-- An instruction that moves neither sp nor depth and writes no memory keeps the invariant. -/
theorem Inv.of_sameStack (hs : Inv s) (hr : s.state = .running) (hrun : SameRun s t) (hlatches : SameLatches s t)
    (hmem : t.mem = s.mem) (hstack : SameStack s t) : Inv t := by
  obtain ⟨hsp, hdepth⟩ := hstack
  exact hs.of_sameRun hr hrun hlatches (hmem ▸ hs.mem_wf) (hsp ▸ hs.limit_le_sp) (hsp ▸ hs.sp_le_top)
    (hdepth ▸ hs.depth_le_max)

/-- The bounds of sp after a push that the guards admit, for PUSH and CALL (R121, R135). -/
theorem Inv.pushed_sp_bounds (hs : Inv s) (hc : s.canPush = true) (v : Word) :
    s.stackLimit.toNat ≤ (s.pushed v).sp.toNat ∧ (s.pushed v).sp.toNat ≤ 65536 := by
  have hroom := (canPush_iff s).mp hc
  have htop := hs.sp_le_top
  rw [pushed_sp_toNat]
  omega

/-- The bounds of sp after a pop that its guard admits, for POP and RET (R122, R136). -/
theorem Inv.popped_sp_bounds (hs : Inv s) (hc : s.canPop = true) :
    s.stackLimit.toNat ≤ s.popped.sp.toNat ∧ s.popped.sp.toNat ≤ 65536 := by
  have hroom := (canPop_iff s).mp hc
  have hlow := hs.limit_le_sp
  rw [popped_sp_toNat s hc]
  omega

/-- Every instruction keeps the invariant of a running machine: the guards of the stack keep sp in its bounds, CALL's
depth guard the depth, and the bounds check of a store the form of memory. -/
theorem ExecForm.inv (h : ExecForm i s t) (hs : Inv s) (hr : s.state = .running) : Inv t := by
  have hlatches := h.sameLatches
  cases h with
  | raised k a ha => exact hs.raise hr ha
  | halted v _ => exact hs.haltWith hr v
  | wroteReg | swapped | wroteAlu | compared | jumped | emitted =>
    exact hs.of_sameStack hr ⟨rfl, rfl, rfl⟩ hlatches rfl ⟨rfl, rfl⟩
  | answered id r off n _ _ =>
    obtain ⟨_, hstack, _, hrun⟩ := takeAnswer_setReg_advance_frame s r (wrap n) .ira
    exact hs.of_sameStack hr hrun hlatches (takeAnswer_mem s) hstack
  | stored a v _ hb =>
    exact hs.of_sameRun hr ⟨rfl, rfl, rfl⟩ hlatches (wf_writeWord v hs.mem_wf hb) hs.limit_le_sp hs.sp_le_top
      hs.depth_le_max
  | pushed rs _ hc hb =>
    obtain ⟨hlow, htop⟩ := hs.pushed_sp_bounds hc (s.reg rs)
    exact hs.of_sameRun hr ⟨rfl, rfl, rfl⟩ hlatches (wf_writeWord _ hs.mem_wf hb) hlow htop hs.depth_le_max
  | called target _ hd hc hb =>
    obtain ⟨hlow, htop⟩ := hs.pushed_sp_bounds hc (s.next .a)
    exact hs.of_sameRun hr ⟨rfl, rfl, rfl⟩ hlatches (wf_writeWord _ hs.mem_wf hb) hlow htop
      ((canCall_iff s one_le_maxStackDepth).mp hd)
  | popped _ _ hc =>
    obtain ⟨hlow, htop⟩ := hs.popped_sp_bounds hc
    exact hs.of_sameRun hr ⟨rfl, rfl, rfl⟩ hlatches hs.mem_wf hlow htop hs.depth_le_max
  | returned _ _ hc =>
    obtain ⟨hlow, htop⟩ := hs.popped_sp_bounds hc
    exact hs.of_sameRun hr ⟨rfl, rfl, rfl⟩ hlatches hs.mem_wf hlow htop
      (Nat.le_trans (Nat.sub_le s.depth 1) hs.depth_le_max)

/-- Settles O48: a step takes a fault (`Inv.raise`) or does what an instruction can do (`ExecForm.inv`). -/
theorem stepKeepsInvariant : Obligations.StepKeepsInvariant := by
  intro s t hs h
  obtain ⟨hr, ⟨k, a, rfl, ha⟩ | ⟨i, hform⟩⟩ := step_form h
  · exact hs.raise hr ha
  · exact hform.inv hs hr

/-! ## Where the invariant begins (R40, R161) -/

/-- The state of an image that fits memory meets the invariant. -/
theorem inv_loaded (entry : Nat) {code data : List Byte} (hcode : code.length < 65536)
    (hfit : code.length + data.length ≤ 65536) : Inv (State.loaded entry code data) := by
  have hlimit := loaded_stackLimit_toNat entry hfit
  have hbase := loaded_dataBase_toNat entry data hcode
  have hsp : (State.loaded entry code data).sp.toNat = 65536 := rfl
  exact {
    mem_wf := wf_ofBytes (by rw [List.length_append, Nat.zero_add]; exact hfit)
    limit_le_sp := by omega
    sp_le_top := by omega
    data_le_limit := by omega
    depth_le_max := Nat.zero_le _
    fault_iff := by simp [State.loaded, State.reset]
    status_iff := by simp [State.loaded, State.reset]
    record_pc := fun _ h => by cases h
    record_addr := fun _ h => by cases h }

/-- Settles O50: what the loader accepts is an image that fits (`exists_buildImage_of_loadImageWith`). -/
theorem loadedImageMeetsInvariant : Obligations.LoadedImageMeetsInvariant := by
  intro image s h
  obtain ⟨entry, code, data, _, _, hcode, _, hfit, rfl⟩ := exists_buildImage_of_loadImageWith h
  exact inv_loaded entry hcode hfit

/-- With no bytes loaded the state is the reset state (log entry 1). -/
theorem loaded_nil : State.loaded 0 [] [] = State.reset := rfl

/-- Settles O49: the reset state is that of empty sections. -/
theorem resetMeetsInvariant : Obligations.ResetMeetsInvariant := by
  rw [Obligations.ResetMeetsInvariant, ← loaded_nil]
  exact inv_loaded 0 (by decide) (by decide)

/-- Settles O58: the registers are those of every loaded state, and memory lists no byte; the rest is the reset state's
own. -/
theorem resetValues : Obligations.ResetValues :=
  ⟨loaded_reg 0 [] [], rfl, rfl, rfl, fun _ => rfl, rfl, rfl, rfl, rfl, rfl, rfl, rfl, rfl, rfl⟩

end Sys2Proof.Machine
end
